-- ==== Sys2Proof/Word.lean ====
section
/-! DEFINITION. The vector types of the block: words, bytes and command words
(`00_scope.md` R7, R9; `30_encoding.md` R60). All values are unsigned (R9). -/

namespace Sys2Proof

/-- A 32-bit value: the CRC register, an input word, a response (R7, width `W`). -/
abbrev Word := BitVec 32

/-- One byte of the host's input buffer (R40). -/
abbrev Byte := BitVec 8

/-- A command word of the one format `CMD34`: `op` in bits 33..32, `data` in bits 31..0 (R60). -/
abbrev Cmd34 := BitVec 34

end Sys2Proof
end

