-- ==== Sys2Proof/Config.lean ====
section
/-! DEFINITION. The parameters of the block, every one fixed by the spec (`00_scope.md` R7, R8).
The two open parameters `PLATFORM_MAP` and `T_CLK` are read by no rule (R8, R52, R173; U9) and are
left out (assumption log 9). There is no free value: no rule reads a value the spec leaves open. -/

namespace Sys2Proof.Config

/-- `POLY`, the generator polynomial without its degree-32 term (R3, R22). -/
def poly : Word := 0x04C11DB7#32

/-- `SEED`, the value of `crc` after reset and after `INIT` (R23). -/
def seed : Word := 0xFFFFFFFF#32

/-- `NSTEP`, the number of `STEP`s of one fold (R7). -/
abbrev nstep : Nat := 32

/-- `CHUNK`, the number of message bytes the host packs into one word (R7, R42). -/
abbrev chunkBytes : Nat := 4

/-- The pad byte the host appends on the right of a short last chunk (R7, R43). -/
def padByte : Byte := 0x00#8

end Sys2Proof.Config
end

