-- ==== Sys2Proof/Syntax.lean ====
section
/-! DEFINITION. The commands of the `CRC32W command set, version 1` (`00_scope.md` R2): one
constructor per row of the opcode table (`30_encoding.md` R61). -/

namespace Sys2Proof

/-- A command of the block. Only `FOLD` has an operand (R62): the `data` field of the other three
is ignored (R67), so their terms carry none. `STEP` is no command (R68). -/
inductive Instr where
  /-- `NOP`, op 0 (R81). -/
  | nop
  /-- `INIT`, op 1 (R82). -/
  | init
  /-- `FOLD w`, op 2, `w` the data field (R83). -/
  | fold (w : Word)
  /-- `READ`, op 3 (R85). -/
  | read
  deriving DecidableEq, Repr

end Sys2Proof
end

