-- ==== Sys2Proof/WellFormed.lean ====
section
/-! DEFINITION. Well-formedness checks. Every command term is well formed: "All `2^32` values of
`data` are legal words" (`30_encoding.md` R62) and no encoding is illegal (R66), so the types leave
nothing to check there. What can be ill formed is what the host writes: a `FOLDB` operand list
(`42_compute_sequence.md` R122) and a number meant as a command word (R60). -/

namespace Sys2Proof

/-- Every command is well formed, whatever its word (R62, R66). -/
def Instr.wellFormed : Instr → Bool
  | .nop => true
  | .init => true
  | .fold _ => true
  | .read => true

/-- The operand list of a `FOLDB` has 1 to 4 bytes; "a `FOLDB` with zero bytes does not exist"
(R122). -/
def foldbOperandsOk (chunk : List Byte) : Bool :=
  decide (1 ≤ chunk.length) && decide (chunk.length ≤ Config.chunkBytes)

/-- A number is a command word exactly when it fits in the 34 bits of `CMD34` (R60, R72). -/
def isCmd34 (w : Nat) : Bool := decide (w < 2 ^ 34)

end Sys2Proof
end

