-- ==== Sys2Proof/Decode.lean ====
section
/-! DEFINITION. The command decoder and encoder (`30_encoding.md` R60 to R67). The decoder of a
34-bit command word is total (R66). A number that does not fit in 34 bits is no command word and is
rejected by name. -/

namespace Sys2Proof

/-- The opcode field `cmd[33:32]` (R60). -/
def opField (c : Cmd34) : BitVec 2 := c.extractLsb' 32 2

/-- The data field `cmd[31:0]` (R60, R62). -/
def dataField (c : Cmd34) : Word := c.extractLsb' 0 32

/-- The command of a command word: the opcode map of R61, on the opcode field alone. -/
def decode (c : Cmd34) : Instr :=
  if opField c = 0#2 then .nop
  else if opField c = 1#2 then .init
  else if opField c = 2#2 then .fold (dataField c)
  else .read

/-- Why a number is not read as a command. -/
inductive DecodeError where
  /-- The number needs more than the 34 bits of `CMD34`, the only format there is (R60, R72). -/
  | notCmd34
  deriving DecidableEq, Repr

/-- Decoding of any number: the command, or the reason it is none. -/
def decodeNat (w : Nat) : Except DecodeError Instr :=
  if isCmd34 w then .ok (decode (BitVec.ofNat 34 w)) else .error .notCmd34

/-- The decoder on a table word: the low `nbits` bits of `w`, every bit above them 0 (assumption
log 13). -/
def decodeTableWord (nbits w : Nat) : Option Instr :=
  match decodeNat (w % 2 ^ nbits) with
  | .ok i => some i
  | .error _ => none

/-- The command word an assembler emits: the ignored data field of `NOP`, `INIT` and `READ` is all
zeros (R67, R69). -/
def encode : Instr → Cmd34
  | .nop => 0#2 ++ 0#32
  | .init => 1#2 ++ 0#32
  | .fold w => 2#2 ++ w
  | .read => 3#2 ++ 0#32

end Sys2Proof
end

