-- ==== Sys2Proof/Machine/State.lean ====
section
/-! DEFINITION. The state of the block at bit level (`10_state.md` R20), what the host drives, and
what it has been answered. One step of the machine is one rising edge of `clk`
(`41_bit_step.md` R105; assumption log 1). -/

namespace Sys2Proof.Machine

/-- Why the machine stops with a fault. No constructor: "In a model, the step function of the block
never returns a fault" (R140; assumption log 16). -/
inductive Fault where
  deriving DecidableEq, Repr

/-- Why the machine gives a run no meaning. -/
inductive Refusal where
  /-- Raised by an arm of `exec` for a command without a meaning: none here. Safe. -/
  | notModelled (mnemonic : String)
  /-- Raised by the clock edge when the host withdraws or changes a held command (R64, R147, R169;
  U4, D17; assumption log 4). The spec asks for this refusal. Safe: nothing can be proved about such
  a run. -/
  | handshakeBroken
  deriving DecidableEq, Repr

/-- The input ports as sampled at one rising edge (`10_state.md` R28). -/
structure Edge where
  /-- `rst`, synchronous reset, active high (R160). -/
  rst : Bool
  /-- `cmd_valid`: the host presents a command (R63). -/
  cmdValid : Bool
  /-- `cmd`, looked at only when `cmd_valid == 1` (R63, U5). -/
  cmd : Cmd34
  deriving DecidableEq, Repr

/-- The machine's state: the four registers of R20, and three fields of the model's own. -/
structure State where
  /-- The CRC register, the accumulator (R21). -/
  crc : Word
  /-- The word being folded, unchanged for its 32 steps (R24). -/
  wreg : Word
  /-- The index of the next step (R25). -/
  cnt : BitVec 5
  /-- A fold is in progress (R26). -/
  busy : Bool
  /-- What the host drives at the edges to come, the next edge first (assumption log 2). -/
  inputs : List Edge
  /-- The command the host presented at the last edge and the block did not accept (R64; assumption
  log 4). -/
  held : Option Cmd34
  /-- The values `respond` has delivered to the host, oldest first (R16, R85; assumption log 7). -/
  responses : List Word
  deriving DecidableEq, Repr

/-- The state after a reset event (R35, R161): `crc` seeded, idle, `cnt` 0. `wreg` is unspecified
there; its 0 is a DESIGN CHOICE (assumption log 3). The host drives nothing yet. -/
def State.reset : State where
  crc := Config.seed
  wreg := 0#32
  cnt := 0#5
  busy := false
  inputs := []
  held := none
  responses := []

end Sys2Proof.Machine
end

