-- ==== Sys2Proof/Machine/Operands.lean ====
section
/-! DEFINITION. The operand forms: the bit a step consumes (`41_bit_step.md` R100, R102), and the
host's assembly of a word from four bytes (`42_compute_sequence.md` R121). The one operand of a
command, the data field of `FOLD`, is taken as it stands (`dataField`, R62). -/

namespace Sys2Proof.Machine

/-- The input bit of step `cnt`: `wreg[31 - cnt]`, most significant bit first (R100, R102). -/
def inputBit (wreg : Word) (cnt : BitVec 5) : Bool := wreg.getLsbD (31 - cnt.toNat)

/-- `PACK b0, b1, b2, b3`: the byte at the lowest offset lands in the least significant byte (R44,
R121). -/
def pack (b0 b1 b2 b3 : Byte) : Word :=
  (b3.setWidth 32 <<< 24) ||| (b2.setWidth 32 <<< 16) ||| (b1.setWidth 32 <<< 8) ||| b0.setWidth 32

end Sys2Proof.Machine
end

