-- ==== Sys2Proof/Machine/Flags.lean ====
section
/-! DEFINITION. The one-bit values of the block: the feedback bit, which exists only within its step
(`41_bit_step.md` R102), the one status bit `busy` with its step counter (`10_state.md` R25, R26,
R31), and the handshake outputs (`30_encoding.md` R63, R65). There are no condition codes (R31). -/

namespace Sys2Proof.Machine

/-- The feedback bit: bit 31 of the register at the start of the step, XOR the input bit (R102). -/
def feedbackBit (c : Word) (b : Bool) : Bool := c.getLsbD 31 ^^ b

/-- `cnt` after a `STEP`: the last step writes 0, every other adds 1 (R106). -/
def cntAfterStep (cnt : BitVec 5) : BitVec 5 := if cnt = 31#5 then 0#5 else cnt + 1#5

/-- `busy` after a `STEP`: the step taken with `cnt == 31` clears it (R106). -/
def busyAfterStep (cnt : BitVec 5) : Bool := decide (cnt ≠ 31#5)

/-- The output `cmd_ready = (busy == 0) & (rst == 0)` (R63). -/
def cmdReady (s : State) (e : Edge) : Bool := !s.busy && !e.rst

/-- The output `rsp_valid = cmd_valid & cmd_ready & (cmd[33:32] == 3)` (R65). -/
def rspValid (s : State) (e : Edge) : Bool :=
  e.cmdValid && cmdReady s e && decide (opField e.cmd = 3#2)

/-- The output `rsp_data`: `crc` when `rsp_valid == 1` (R65). When it is 0 the port may carry any
value and a model exposes none (U3, D21; assumption log 6). -/
def rspData (s : State) (e : Edge) : Option Word := if rspValid s e then some s.crc else none

end Sys2Proof.Machine
end

