-- ==== Sys2Proof/Machine/Ops.lean ====
section
/-! DEFINITION. The named operations on the state. Every write of a register goes through one setter
(`00_scope.md` R11), and the operations below are the only ones the commands, the sequencer and the
clock edge use. There is no operation for taking an exception and none for returning from one: the
block raises none (`60_exceptions.md` R140, R145, R146). -/

namespace Sys2Proof.Machine

/-- `crc <- v` (R21). -/
def State.setCrc (s : State) (v : Word) : State := { s with crc := v }

/-- `wreg <- v` (R24). -/
def State.setWreg (s : State) (v : Word) : State := { s with wreg := v }

/-- `cnt <- v` (R25). -/
def State.setCnt (s : State) (v : BitVec 5) : State := { s with cnt := v }

/-- `busy <- v` (R26). -/
def State.setBusy (s : State) (v : Bool) : State := { s with busy := v }

/-- Replace what the host will drive. -/
def State.setInputs (s : State) (v : List Edge) : State := { s with inputs := v }

/-- Replace the record of the held command. -/
def State.setHeld (s : State) (v : Option Cmd34) : State := { s with held := v }

/-- Replace the record of delivered responses. -/
def State.setResponses (s : State) (v : List Word) : State := { s with responses := v }

/-- The edge of a host that presents nothing and does not reset. -/
def quietEdge : Edge where
  rst := false
  cmdValid := false
  cmd := 0#34

/-- The edge of a host that presents the command word `c`. -/
def presentEdge (c : Cmd34) : Edge where
  rst := false
  cmdValid := true
  cmd := c

/-- The inputs at the next edge; after the last listed edge the host drives nothing (assumption
log 2). -/
def nextEdge (s : State) : Edge := s.inputs.headD quietEdge

/-- The edge has been sampled: it is no longer to come. -/
def popEdge (s : State) : State := s.setInputs s.inputs.tail

/-- The host breaks the handshake: a command is held and the edge does not present it again (R64,
R169; assumption log 4). -/
def handshakeBroken (held : Option Cmd34) (e : Edge) : Bool :=
  match held with
  | none => false
  | some c => !(e.cmdValid && decide (e.cmd = c))

/-- The command held after an edge: the one presented there, if the block was not ready (R64). -/
def heldAfter (s : State) (e : Edge) : Option Cmd34 :=
  if e.cmdValid && !cmdReady s e then some e.cmd else none

/-- The command accepted at an edge, if one is (R63). -/
def acceptedAt (s : State) (e : Edge) : Option Instr :=
  if e.cmdValid && cmdReady s e then some (decode e.cmd) else none

/-- `respond(v)`: the host receives `v` in the accepting cycle (R12, R85). -/
def respond (v : Word) (s : State) : State := s.setResponses (s.responses ++ [v])

/-- The accept of a `FOLD`: `wreg <- w; cnt <- 0; busy <- 1`; `crc` is not changed (R107). -/
def startFold (w : Word) (s : State) : State := ((s.setWreg w).setCnt 0#5).setBusy true

/-- The reset event: `crc <- SEED; busy <- 0; cnt <- 0`, and `wreg` keeps what it held (R160). -/
def resetRegisters (s : State) : State := ((s.setCrc Config.seed).setBusy false).setCnt 0#5

end Sys2Proof.Machine
end

