-- ==== Sys2Proof/Machine/Sequencer.lean ====
section
/-! DEFINITION. The feedback control logic and the micro-operation `STEP` (`41_bit_step.md` R100 to
R106), the fold of a whole word as a pure function (`40_word_commands.md` R84), and the equivalent
shift-register datapath (R113). -/

namespace Sys2Proof.Machine

/-- One shift and conditional XOR (R101): the feedback bit is taken from the register before the
shift (R102), the shift drops bit 31 and brings in 0 (R103), and `POLY` is XORed in when the
feedback bit is 1 (R104). -/
def step1 (c : Word) (b : Bool) : Word :=
  (c <<< 1) ^^^ (if feedbackBit c b then Config.poly else 0#32)

/-- The value `c` with `step1 c b = n`: bit 0 of `n` is the feedback bit (R112). -/
def step1Inverse (n : Word) (b : Bool) : Word :=
  let fb := n.getLsbD 0
  (BitVec.ofBool (fb ^^ b)) ++ (n ^^^ (if fb then Config.poly else 0#32)).extractLsb' 1 31

/-- `c_n` of R84: the register after steps 0 to `n - 1` of the fold of `w` that starts from `c`. -/
def foldSteps : Nat → Word → Word → Word
  | 0, c, _ => c
  | n + 1, c, w => step1 (foldSteps n c w) (w.getLsbD (31 - n))

/-- `fold32(c, w)`: 32 steps, most significant bit of `w` first (R84). -/
def fold32 (c w : Word) : Word := foldSteps Config.nstep c w

/-- The micro-operation `STEP` (R106). -/
def microStep (s : State) : State :=
  ((s.setCrc (step1 s.crc (inputBit s.wreg s.cnt))).setCnt (cntAfterStep s.cnt)).setBusy
    (busyAfterStep s.cnt)

/-- At most `n` `STEP`s, none once the block is idle. -/
def settleFor : Nat → State → State
  | 0, s => s
  | n + 1, s => if s.busy then settleFor n (microStep s) else s

/-- The block after the `STEP`s that are left of the fold in progress: a fold has at most 32 of them
(R107), so the result is idle. -/
def settle (s : State) : State := settleFor Config.nstep s

/-- One step of the shift-register datapath of R113: the input bit is bit 31 of `sr`, and `sr`
shifts left with the CRC register. -/
def shiftStep (p : Word × Word) : Word × Word := (step1 p.1 (p.2.getLsbD 31), p.2 <<< 1)

/-- `n` steps of the shift-register datapath, from `crc = c` and `sr = w` (R113). -/
def shiftSteps : Nat → Word → Word → Word × Word
  | 0, c, w => (c, w)
  | n + 1, c, w => shiftStep (shiftSteps n c w)

end Sys2Proof.Machine
end

