-- ==== Sys2Proof/Machine/Commands.lean ====
section
/-! DEFINITION. What each accepted command does, at the edge that accepts it
(`40_word_commands.md` R81 to R85, `41_bit_step.md` R105 case 3). Acceptance itself, the hold and
the reset are the clock edge's (`Machine/ClockEdge.lean`). -/

namespace Sys2Proof.Machine

/-- `NOP`: nothing (R81). -/
def execNop (s : State) : Host.Outcome State Fault Refusal := .next s

/-- `INIT`: `crc <- SEED`, nothing else (R82). -/
def execInit (s : State) : Host.Outcome State Fault Refusal := .next (s.setCrc Config.seed)

/-- `FOLD w`: the accept; the 32 `STEP`s follow, one an edge (R83, R107, R108). -/
def execFold (w : Word) (s : State) : Host.Outcome State Fault Refusal := .next (startFold w s)

/-- `READ`: `respond(crc)`; no register changes (R85). -/
def execRead (s : State) : Host.Outcome State Fault Refusal := .next (respond s.crc s)

end Sys2Proof.Machine
end

