-- ==== Sys2Proof/Machine/Dispatch.lean ====
section
/-! DEFINITION. The meaning of every command: one arm per constructor of `Instr`. `exec i s` is the
effect of `i` when it is accepted in `s` (`40_word_commands.md` R80; assumption log 15). -/

namespace Sys2Proof.Machine

/-- The effect of an accepted command (R105 case 3). -/
def exec (i : Instr) (s : State) : Host.Outcome State Fault Refusal :=
  match i with
  | .nop => Sys2Proof.Machine.execNop s
  | .init => Sys2Proof.Machine.execInit s
  | .fold w => Sys2Proof.Machine.execFold w s
  | .read => Sys2Proof.Machine.execRead s

end Sys2Proof.Machine
end

