-- ==== Sys2Proof/Machine/ClockEdge.lean ====
section
/-! DEFINITION. The clock-edge rule, the whole behaviour of the block at bit level
(`41_bit_step.md` R105), with the hold of `30_encoding.md` R64 and the refusal of
`60_exceptions.md` R147. -/

namespace Sys2Proof.Machine

/-- One rising edge with inputs `e`, in the priority of R105 and R144: reset, then `STEP`, then
accept, then nothing. A presented command the block is not ready for is held, and a host that does
not keep a held command is refused. -/
def clockEdge (e : Edge) (s : State) : Host.Outcome State Fault Refusal :=
  if handshakeBroken s.held e then .refused .handshakeBroken
  else
    let s' := s.setHeld (heldAfter s e)
    if e.rst then .next (resetRegisters s')
    else if s.busy then .next (microStep s')
    else if e.cmdValid then exec (decode e.cmd) s'
    else .next s'

/-- The state in which the host presents the command word `c` at the next edge and the block can
accept it there: a fold in progress has been finished, no command is held (assumption log 12). -/
def presentNext (c : Cmd34) (s : State) : State :=
  let s' := settle s
  (s'.setHeld none).setInputs (presentEdge c :: s'.inputs)

end Sys2Proof.Machine
end

