-- ==== Sys2Proof/Machine/Step.lean ====
section
/-! DEFINITION. The machine's step: the next rising edge, with the inputs the host drives there. -/

namespace Sys2Proof.Machine

/-- One rising edge of `clk` (R105). -/
def step (s : State) : Host.Outcome State Fault Refusal := clockEdge (nextEdge s) (popEdge s)

/-- `s` with the command word made of the low `nbits` bits of `w` presented at the next edge, in a
state that accepts it there (assumption logs 12 and 13). -/
def State.withFetchWord (s : State) (nbits w : Nat) : State :=
  presentNext (BitVec.ofNat 34 (w % 2 ^ nbits)) s

end Sys2Proof.Machine
end

