-- ==== Sys2Proof/Machine/Message.lean ====
section
/-! DEFINITION. The host's procedures on a message: the input buffer, chunks, padding and the word
stream (`20_memory.md` R40 to R46), and the pseudo-instructions `FOLDB` and `COMPUTE`
(`42_compute_sequence.md` R122, R123). They say which commands a host issues; the block takes no part
in them. The buffer is a parameter, a list of bytes of any length (R37, R41, R56; assumption
log 11). -/

namespace Sys2Proof.Machine

/-- `MemRead(addr, n)` (R12): the `n` bytes of the buffer from offset `addr` on, or none where the
buffer has no such bytes (R40). -/
def memRead (buf : List Byte) (addr n : Nat) : Option (List Byte) :=
  if addr + n ≤ buf.length then some ((buf.drop addr).take n) else none

/-- `nw = ceil(n / 4)`, the number of chunks (R42). -/
def wordCount (buf : List Byte) : Nat := (buf.length + 3) / Config.chunkBytes

/-- The bytes of chunk `k`: `MemRead(4k, min(4, n - 4k))` (R42, R123). -/
def chunkAt (buf : List Byte) (k : Nat) : Option (List Byte) :=
  memRead buf (Config.chunkBytes * k) (min Config.chunkBytes (buf.length - Config.chunkBytes * k))

/-- Zero bytes appended on the right until length 4 (R43). -/
def padChunk (chunk : List Byte) : List Byte :=
  chunk ++ List.replicate (Config.chunkBytes - chunk.length) Config.padByte

/-- The word of a padded chunk (R44); a list that is not four bytes has none. -/
def packChunk : List Byte → Option Word
  | [b0, b1, b2, b3] => some (pack b0 b1 b2 b3)
  | _ => none

/-- `FOLDB b0[, b1[, b2[, b3]]]`: pad, pack and fold a chunk of 1 to 4 bytes; there is no other
(R122). -/
def foldb (chunk : List Byte) : Option Instr :=
  if foldbOperandsOk chunk then (packChunk (padChunk chunk)).map Instr.fold else none

/-- The `FOLDB` of chunk `k` of the buffer. -/
def foldChunk (buf : List Byte) (k : Nat) : Option Instr := (chunkAt buf k).bind foldb

/-- `COMPUTE d`: `INIT`, the `FOLDB` of every chunk in increasing order, `READ` (R123). -/
def compute (d : List Byte) : Option (List Instr) :=
  ((List.range (wordCount d)).mapM (foldChunk d)).map (fun folds => .init :: folds ++ [.read])

/-- The word stream of a buffer: words of four bytes from offset 0 on, the last one padded with
zeros on the right (R42, R43, R44, R46). -/
def wordsOf : List Byte → List Word
  | [] => []
  | [b0] => [pack b0 Config.padByte Config.padByte Config.padByte]
  | [b0, b1] => [pack b0 b1 Config.padByte Config.padByte]
  | [b0, b1, b2] => [pack b0 b1 b2 Config.padByte]
  | b0 :: b1 :: b2 :: b3 :: rest => pack b0 b1 b2 b3 :: wordsOf rest

/-- The words folded one after the other into `c` (R86). -/
def foldWords (c : Word) (ws : List Word) : Word := ws.foldl fold32 c

/-- The result of `COMPUTE d` as a pure function of the message (R123). -/
def checksum (d : List Byte) : Word := foldWords Config.seed (wordsOf d)

/-- The bytes of a message in the order in which their bits enter the feedback logic: zero padded,
every chunk of four reversed (R51, R130). -/
def entryOrder : List Byte → List Byte
  | [] => []
  | [b0] => [Config.padByte, Config.padByte, Config.padByte, b0]
  | [b0, b1] => [Config.padByte, Config.padByte, b1, b0]
  | [b0, b1, b2] => [Config.padByte, b2, b1, b0]
  | b0 :: b1 :: b2 :: b3 :: rest => b3 :: b2 :: b1 :: b0 :: entryOrder rest

/-- A byte-serial step of the non-reflected CRC: bit 7 of the byte first (R51, R130). -/
def byteStep (c : Word) (b : Byte) : Word :=
  [7, 6, 5, 4, 3, 2, 1, 0].foldl (fun c j => step1 c (b.getLsbD j)) c

end Sys2Proof.Machine
end

