-- ==== Sys2Proof/Machine/Assembler.lean ====
section
/-! DEFINITION. The display convention and the assembler syntax (`30_encoding.md` R60, R69, R70,
R71). Text is a list of characters. What the spec leaves open about white space and letter case is
fixed in assumption log 14. -/

namespace Sys2Proof.Machine

/-- The upper case hexadecimal digit of a 4-bit value (R70). -/
def hexDigit (v : BitVec 4) : Char :=
  ['0', '1', '2', '3', '4', '5', '6', '7', '8', '9', 'A', 'B', 'C', 'D', 'E', 'F'].getD v.toNat '0'

/-- The display of a 32-bit value: exactly 8 upper case hexadecimal digits (R70). -/
def hex8 (w : Word) : List Char :=
  [28, 24, 20, 16, 12, 8, 4, 0].map (fun lo => hexDigit (w.extractLsb' lo 4))

/-- The display of a command word: 9 digits, the leading one the opcode (R60). -/
def hex9 (c : Cmd34) : List Char := hexDigit ((opField c).setWidth 4) :: hex8 (dataField c)

/-- The assembly line of a command (R69). -/
def asmLine : Instr → List Char
  | .nop => ['N', 'O', 'P']
  | .init => ['I', 'N', 'I', 'T']
  | .fold w => ['F', 'O', 'L', 'D', ' ', '0', 'x'] ++ hex8 w
  | .read => ['R', 'E', 'A', 'D']

/-- The pieces of a line. -/
inductive Token where
  /-- A run of characters that are none of the others: a mnemonic or a literal. -/
  | word (cs : List Char)
  /-- `,` -/
  | comma
  /-- `[` -/
  | opening
  /-- `]` -/
  | closing
  deriving DecidableEq, Repr

/-- A line of a program: a command or a pseudo-instruction (R69, R71). -/
inductive Line where
  /-- One of the four commands. -/
  | command (i : Instr)
  /-- `PACK b0, b1, b2, b3`: a host-side function, no command (R71, R121). -/
  | packed (b0 b1 b2 b3 : Byte)
  /-- `FOLDB b0[, b1[, b2[, b3]]]` (R122). -/
  | foldBytes (chunk : List Byte)
  /-- `COMPUTE d` (R123). -/
  | computeOf (d : List Byte)
  deriving DecidableEq, Repr

/-- Why a line is no line of the language. -/
inductive AsmError where
  /-- The line does not start with a mnemonic of R69 or R71. -/
  | unknownMnemonic
  /-- The operands are not those the mnemonic takes. -/
  | badOperands
  deriving DecidableEq, Repr

/-- The line without its comment: `;` starts one (R69). -/
def stripComment (cs : List Char) : List Char := cs.takeWhile (fun c => decide (c ≠ ';'))

/-- A finished run of characters as a token, if there is one. -/
def flush (cur : List Char) : List Token := if cur = [] then [] else [.word cur]

/-- The tokens of a line; `cur` is the run of characters read so far. -/
def tokenize : List Char → List Char → List Token
  | cur, [] => flush cur
  | cur, c :: cs =>
    if c = ' ' then flush cur ++ tokenize [] cs
    else if c = ',' then flush cur ++ .comma :: tokenize [] cs
    else if c = '[' then flush cur ++ .opening :: tokenize [] cs
    else if c = ']' then flush cur ++ .closing :: tokenize [] cs
    else tokenize (cur ++ [c]) cs

/-- The value of a hexadecimal digit, either case (assumption log 14). -/
def hexValue (c : Char) : Option Nat :=
  let n := c.toNat
  if 48 ≤ n ∧ n ≤ 57 then some (n - 48)
  else if 65 ≤ n ∧ n ≤ 70 then some (n - 55)
  else if 97 ≤ n ∧ n ≤ 102 then some (n - 87)
  else none

/-- The value of a list of hexadecimal digits, the first the most significant, after `acc`. -/
def hexDigits : Nat → List Char → Option Nat
  | acc, [] => some acc
  | acc, c :: cs => (hexValue c).bind (fun v => hexDigits (16 * acc + v) cs)

/-- A literal `0x` with exactly `n` hexadecimal digits (R10, R69). -/
def hexLiteral (n : Nat) : List Char → Option Nat
  | '0' :: 'x' :: ds => if ds.length = n then hexDigits 0 ds else none
  | _ => none

/-- A byte literal `0xHH`. -/
def byteLiteral (cs : List Char) : Option Byte := (hexLiteral 2 cs).map (BitVec.ofNat 8)

/-- One or more byte literals with commas between them. -/
def byteList : List Token → Option (List Byte)
  | [.word b] => (byteLiteral b).map (fun v => [v])
  | .word b :: .comma :: rest => (byteLiteral b).bind (fun v => (byteList rest).map (v :: ·))
  | _ => none

/-- The operands of `FOLD`: one 32-bit literal of 8 digits (R69). -/
def parseFold : List Token → Option Line
  | [.word cs] => (hexLiteral 8 cs).map (fun n => .command (.fold (BitVec.ofNat 32 n)))
  | _ => none

/-- The operands of `PACK`: four bytes (R71). -/
def parsePack (ts : List Token) : Option Line :=
  match byteList ts with
  | some [b0, b1, b2, b3] => some (.packed b0 b1 b2 b3)
  | _ => none

/-- The operands of `FOLDB`: one to four bytes (R122). -/
def parseFoldb (ts : List Token) : Option Line :=
  (byteList ts).bind (fun chunk => if foldbOperandsOk chunk then some (.foldBytes chunk) else none)

/-- The operand of `COMPUTE`: a bracketed byte list, which may be empty (R71, R124). -/
def parseCompute : List Token → Option Line
  | [.opening, .closing] => some (.computeOf [])
  | .opening :: rest =>
    if rest.getLast? = some .closing then (byteList rest.dropLast).map .computeOf else none
  | _ => none

/-- A mnemonic with no operands. -/
def parseBare (i : Instr) (ts : List Token) : Option Line :=
  if ts = [] then some (.command i) else none

/-- The line made of a mnemonic and its operand tokens. Mnemonics are upper case (R69). -/
def parseTokens (name : List Char) (ts : List Token) : Except AsmError Line :=
  let operands : Option (Option Line) :=
    if name = ['N', 'O', 'P'] then some (parseBare .nop ts)
    else if name = ['I', 'N', 'I', 'T'] then some (parseBare .init ts)
    else if name = ['R', 'E', 'A', 'D'] then some (parseBare .read ts)
    else if name = ['F', 'O', 'L', 'D'] then some (parseFold ts)
    else if name = ['P', 'A', 'C', 'K'] then some (parsePack ts)
    else if name = ['F', 'O', 'L', 'D', 'B'] then some (parseFoldb ts)
    else if name = ['C', 'O', 'M', 'P', 'U', 'T', 'E'] then some (parseCompute ts)
    else none
  match operands with
  | none => .error .unknownMnemonic
  | some none => .error .badOperands
  | some (some l) => .ok l

/-- A line of text: nothing on a blank or comment line, else one line of the language (R69). -/
def parseLine (cs : List Char) : Except AsmError (Option Line) :=
  match tokenize [] (stripComment cs) with
  | [] => .ok none
  | .word name :: ts => (parseTokens name ts).map some
  | _ => .error .unknownMnemonic

/-- The commands a line emits (R71): a pseudo-instruction expands to the commands of its rule. -/
def expandLine : Line → Option (List Instr)
  | .command i => some [i]
  | .packed _ _ _ _ => some []
  | .foldBytes chunk => (foldb chunk).map (fun i => [i])
  | .computeOf d => compute d

/-- The command words a line of text emits (R69). -/
def assembleLine (cs : List Char) : Except AsmError (List Cmd34) :=
  match parseLine cs with
  | .error e => .error e
  | .ok none => .ok []
  | .ok (some l) =>
    match expandLine l with
    | some is => .ok (is.map encode)
    | none => .error .badOperands

/-- The command words of a program, its lines from top to bottom (R69). -/
def assemble : List (List Char) → Except AsmError (List Cmd34)
  | [] => .ok []
  | l :: ls =>
    match assembleLine l, assemble ls with
    | .ok ws, .ok rest => .ok (ws ++ rest)
    | .error e, _ => .error e
    | .ok _, .error e => .error e

end Sys2Proof.Machine
end

