-- ==== Sys2Proof/Machine/HostDrive.lean ====
section
/-! DEFINITION. A host that keeps the handshake and presents each command as early as it can: it
holds a command until the block accepts it (`30_encoding.md` R64, `70_reset_and_hazards.md` R167,
R172). It is one host among many; the machine itself takes any list of edges. -/

namespace Sys2Proof.Machine

/-- The edges after the accepting one before `cmd_ready == 1` again: the table of R172. -/
def edgesAfter : Instr → Nat
  | .nop => 0
  | .init => 0
  | .fold _ => 32
  | .read => 0

/-- The edges at which the host drives a list of commands, when the block still needs `wait` edges
before it is ready: the first command is held for `wait` edges and accepted at the next one. -/
def eagerEdges : Nat → List Instr → List Edge
  | _, [] => []
  | wait, i :: is => List.replicate (wait + 1) (presentEdge (encode i)) ++ eagerEdges (edgesAfter i) is

end Sys2Proof.Machine
end

