-- ==== Sys2Proof/Machine/WordLevel.lean ====
section
/-! DEFINITION. The word level: every command one atomic update of `crc` (`40_word_commands.md` R81
to R88, decision D18). The bit-level machine is the model; this is what it is compared with
(`41_bit_step.md` R108). -/

namespace Sys2Proof.Machine

/-- What can happen to the block at word level. -/
inductive Event where
  /-- A command is accepted (R86). -/
  | accept (i : Instr)
  /-- A reset event (R160). -/
  | reset
  deriving DecidableEq, Repr

/-- `eff(k)(c)`, the effect of a command on `crc` (R86). -/
def eff : Instr → Word → Word
  | .nop, c => c
  | .init, _ => Config.seed
  | .fold w, c => fold32 c w
  | .read, c => c

/-- The responses of a command accepted with `crc = c`: one for `READ`, none else (R86). -/
def resp : Instr → Word → List Word
  | .nop, _ => []
  | .init, _ => []
  | .fold _, _ => []
  | .read, c => [c]

/-- The effect of an event on `crc`. -/
def eventEff : Event → Word → Word
  | .accept i, c => eff i c
  | .reset, _ => Config.seed

/-- The responses at an event: a reset answers nothing (R160). -/
def eventResp : Event → Word → List Word
  | .accept i, c => resp i c
  | .reset, _ => []

/-- A list of accepted commands from `crc = c`: the final `crc` and the responses in order (R16,
R86). -/
def wordRun : List Instr → Word → Word × List Word
  | [], c => (c, [])
  | i :: is, c => ((wordRun is (eff i c)).1, resp i c ++ (wordRun is (eff i c)).2)

/-- The same for a list of events. -/
def eventRun : List Event → Word → Word × List Word
  | [], c => (c, [])
  | e :: es, c => ((eventRun es (eventEff e c)).1, eventResp e c ++ (eventRun es (eventEff e c)).2)

end Sys2Proof.Machine
end

