-- ==== Sys2Proof/Safety.lean ====
section
/-! DEFINITION. The terms claims are stated in: runs of many edges, the invariant, the handshake, the
end of a run, and how a bit-level run is read at word level. -/

namespace Sys2Proof.Machine

/-- `n` rising edges, stopping at the first refusal. -/
def run : Nat → State → Host.Outcome State Fault Refusal
  | 0, s => .next s
  | n + 1, s =>
    match step s with
    | .next t => run n t
    | .fault r => .fault r
    | .refused r => .refused r

/-- The host keeps the handshake at the next edge: a held command is presented again (R64). -/
abbrev keepsHandshake (s : State) : Prop := handshakeBroken s.held (nextEdge s) = false

/-- The host presents the command word `c` at the next edge and does not reset (R63). -/
abbrev presents (s : State) (c : Cmd34) : Prop := nextEdge s = presentEdge c

/-- The command accepted at the next edge, if one is (R63). -/
def acceptedNext (s : State) : Option Instr := acceptedAt s (nextEdge s)

/-- The invariant of R27: an idle block has `cnt == 0` (I-a); and a fold that has performed no step
yet leaves no command held, since the edge that accepts a command holds none (R63, R107). I-c is in
the types. -/
abbrev Invariant (s : State) : Prop :=
  (s.busy = false → s.cnt = 0#5) ∧ (s.busy = true → s.cnt = 0#5 → s.held = none)

/-- A run is over: the host presents no further command and the block is idle (R16). None of the
edges to come presents one, and none is held that the host would have to present again (R64). An
edge to come may still reset. -/
abbrev runOver (s : State) : Prop :=
  (∀ e ∈ s.inputs, e.cmdValid = false) ∧ s.held = none ∧ s.busy = false

/-- The inputs at the edge `k` edges ahead. -/
def edgeAhead (s : State) (k : Nat) : Edge := s.inputs.getD k quietEdge

/-- `crc` at the next word boundary: the fold in progress, if there is one, counted as done. -/
def settledCrc (s : State) : Word := (settle s).crc

/-- The word-level events of the next edge: a reset, an accepted command, or none (R105). -/
def eventsNext (s : State) : List Event :=
  if (nextEdge s).rst then [.reset]
  else match acceptedNext s with
    | some i => [.accept i]
    | none => []

/-- The word-level events of the next `n` edges, in order. -/
def eventsOf : Nat → State → List Event
  | 0, _ => []
  | n + 1, s =>
    eventsNext s ++
      match step s with
      | .next t => eventsOf n t
      | .fault _ => []
      | .refused _ => []

end Sys2Proof.Machine
end

