-- ==== Sys2Proof/Certificates/Slice0/Obligations.lean ====
section
/-! DEFINITION. The statements for the provers. Rules are those of `spec/`. No statement rests on the
value of `wreg` at reset (assumption log 3). The fields `inputs`, `held` and `responses` of State are
the model's own: what a statement says of them rests on assumption logs 2, 4 and 7. -/

open Sys2Proof Sys2Proof.Machine

/-! ### Vocabulary: words as polynomials (`41_bit_step.md` R111) -/

/-- `v(x) = sum of v[j] x^j` with coefficients in GF(2) (R111). -/
noncomputable def Sys2Proof.wordPoly (v : Word) : Polynomial (ZMod 2) :=
  ∑ j : Fin 32, if v.getLsbD j.val then Polynomial.X ^ j.val else 0

/-- `G(x) = x^32 + POLY(x)` (R3, R111). -/
noncomputable def Sys2Proof.generator : Polynomial (ZMod 2) :=
  Polynomial.X ^ 32 + wordPoly Config.poly

/-! ### Encoding (`30_encoding.md`) -/

/-- R60, R61, R67: command words written out from the opcode map decode to their commands, whatever
an ignored data field holds. The last clause, that a number that is no 34-bit word is refused by name,
is the model's choice (assumption log 13): no rule gives a longer number an outcome. -/
def Obligations.CommandWordsDecodeAsListed : Prop :=
  decode 0x000000000#34 = .nop ∧ decode 0x012345678#34 = .nop ∧
  decode 0x100000000#34 = .init ∧ decode 0x1DEADBEEF#34 = .init ∧
  decode 0x200000000#34 = .fold 0x00000000#32 ∧ decode 0x2EFBEADDE#34 = .fold 0xEFBEADDE#32 ∧
  decode 0x300000000#34 = .read ∧ decode 0x3FFFFFFFF#34 = .read ∧
  decodeTableWord 40 0x2EFBEADDE = some (.fold 0xEFBEADDE#32) ∧
  decodeNat 0x400000000 = .error .notCmd34

/-- R61: a command word is the command of a row exactly when `(c & mask) == match`. -/
def Obligations.DecoderFollowsOpcodeMap : Prop :=
  ∀ c : Cmd34,
    (decode c = .nop ↔ c &&& 0x300000000#34 = 0x000000000#34) ∧
    (decode c = .init ↔ c &&& 0x300000000#34 = 0x100000000#34) ∧
    (decode c = .fold (c.setWidth 32) ↔ c &&& 0x300000000#34 = 0x200000000#34) ∧
    (∀ w, decode c = .fold w → w = c.setWidth 32) ∧
    (decode c = .read ↔ c &&& 0x300000000#34 = 0x300000000#34)

/-- R60, R61, R67: decoding an encoded command gives it back, as a command word and as a table word;
encoding a decoded word gives the word back, with an ignored data field cleared. -/
def Obligations.DecodeInvertsEncode : Prop :=
  (∀ i : Instr, decode (encode i) = i ∧ decodeTableWord 34 (encode i).toNat = some i ∧
    decodeTableWord 40 (encode i).toNat = some i) ∧
  (∀ c : Cmd34, encode (decode c) = if opField c = 2#2 then c else c &&& 0x300000000#34)

/-- R67: the data field of `NOP`, `INIT` and `READ` selects nothing and is emitted as zeros; `op = 0` is
the one `NOP` encoding and the all-zero word is a `NOP`. -/
def Obligations.IgnoredDataFieldSelectsNothing : Prop :=
  (∀ c d : Cmd34, opField c = opField d → opField c ≠ 2#2 → decode c = decode d) ∧
  (∀ c : Cmd34, decode c = .nop ↔ opField c = 0#2) ∧ decode 0#34 = .nop ∧
  dataField (encode .nop) = 0#32 ∧ dataField (encode .init) = 0#32 ∧ dataField (encode .read) = 0#32

/-- R69: the line of a command, with or without a comment, assembles to the command's one word, and
the nine digits of `FOLD`'s word are a 2 and the word's eight. -/
def Obligations.AssemblerEmitsTheCommandWord : Prop :=
  (∀ i : Instr, assembleLine (asmLine i) = .ok [encode i]) ∧
  (∀ (i : Instr) (comment : List Char),
    assembleLine (asmLine i ++ ' ' :: ';' :: comment) = .ok [encode i]) ∧
  (∀ w : Word, hex9 (encode (.fold w)) = '2' :: hex8 w) ∧
  hex9 (encode .nop) = '0' :: hex8 0#32 ∧ hex9 (encode .init) = '1' :: hex8 0#32 ∧
  hex9 (encode .read) = '3' :: hex8 0#32

/-- R70: a 32-bit value is displayed as exactly 8 upper case hexadecimal digits, which spell it. -/
def Obligations.DisplayIsEightUpperCaseHexDigits : Prop :=
  (∀ w : Word, (hex8 w).length = 8 ∧
    (∀ ch ∈ hex8 w, ch ∈ ['0', '1', '2', '3', '4', '5', '6', '7', '8', '9', 'A', 'B', 'C', 'D', 'E',
      'F']) ∧
    hexDigits 0 (hex8 w) = some w.toNat) ∧
  hex8 0x0000000A#32 = ['0', '0', '0', '0', '0', '0', '0', 'A']

/-! ### Reset (`10_state.md` R35, `70_reset_and_hazards.md` R160 to R162) -/

/-- R35, R161: after a reset event `crc` is the seed and the block is idle and ready; while `rst` is 1
it answers nothing. -/
def Obligations.ResetStateIsSeededIdleReady : Prop :=
  State.reset.crc = 0xFFFFFFFF#32 ∧ State.reset.busy = false ∧ State.reset.cnt = 0#5 ∧
  (∀ e : Edge, e.rst = false → cmdReady State.reset e = true) ∧
  (∀ e : Edge, e.rst = true → rspValid State.reset e = false)

/-- R160: at an edge with `rst == 1` the registers reset, `wreg` stays, and nothing else happens. That
the host keeps a held command at this edge too, and the next value of the record `held`, are not in
R160: they are the model's reading of R64 and its choice of a record (assumption log 4). -/
def Obligations.ResetEdgeSeedsAndIdles : Prop :=
  ∀ s : State, (nextEdge s).rst = true → keepsHandshake s →
    step s = .next { s with
      crc := 0xFFFFFFFF#32, busy := false, cnt := 0#5, inputs := s.inputs.tail,
      held := if (nextEdge s).cmdValid then some (nextEdge s).cmd else none } ∧
    acceptedNext s = none ∧ cmdReady s (nextEdge s) = false ∧ rspValid s (nextEdge s) = false

/-- R161: holding `rst == 1` for several edges changes nothing after the first. -/
def Obligations.RepeatedResetChangesNothingFurther : Prop :=
  ∀ (s : State) (c : Cmd34) (n : Nat) (rest : List Edge), s.held = none →
    s.inputs = List.replicate (n + 1) ⟨true, false, c⟩ ++ rest →
    run (n + 1) s = .next { s with
      crc := 0xFFFFFFFF#32, busy := false, cnt := 0#5, inputs := rest }

/-- R162: a reset in the middle of a fold abandons it for good, and a command held there is accepted
at the first edge with `rst == 0`; nothing but a reset ends a fold before its 32nd step. The second
clause is about every list of edges that presents no command; beyond the end of the list the host's
silence is the model's choice (assumption log 2). The record `held` at a reset edge is the model's
too (assumption log 4). -/
def Obligations.ResetAbandonsFoldInProgress : Prop :=
  (∀ (s : State) (c : Cmd34) (rest : List Edge), s.busy = true → keepsHandshake s →
    s.inputs = ⟨true, true, c⟩ :: presentEdge c :: rest →
    ∃ t : State, step s = .next t ∧ t.crc = 0xFFFFFFFF#32 ∧ t.busy = false ∧ t.cnt = 0#5 ∧
      t.wreg = s.wreg ∧ t.held = some c ∧ t.responses = s.responses ∧
      step t = exec (decode c) { t with inputs := rest, held := none }) ∧
  (∀ (s : State) (c : Cmd34) (rest : List Edge) (n : Nat), s.busy = true → s.held = none →
    s.inputs = ⟨true, false, c⟩ :: rest → (∀ e ∈ rest, e.cmdValid = false) →
    run (n + 1) s = .next { s with
      crc := 0xFFFFFFFF#32, busy := false, cnt := 0#5, inputs := rest.drop n }) ∧
  (∀ s t : State, s.busy = true → step s = .next t → t.busy = false →
    (nextEdge s).rst = true ∨ s.cnt = 31#5)

/-! ### The commands (`40_word_commands.md`) -/

/-- R81: an accepted `NOP`, whatever its data field, changes no register and answers nothing; it acts
on the registers as presenting nothing does. -/
def Obligations.NopChangesNothing : Prop :=
  (∀ s : State, exec .nop s = .next s) ∧
  (∀ (s : State) (c : Cmd34), s.busy = false → keepsHandshake s → presents s c →
    opField c = 0#2 →
    step s = .next { s with inputs := s.inputs.tail, held := none } ∧
    rspValid s (nextEdge s) = false) ∧
  (∀ (s : State) (c d : Cmd34) (rest : List Edge), s.busy = false → s.held = none →
    opField c = 0#2 →
    step { s with inputs := presentEdge c :: rest } =
      step { s with inputs := ⟨false, false, d⟩ :: rest })

/-- R82: an accepted `INIT`, whatever its data field, writes the seed to `crc` and nothing else; it is
idempotent. -/
def Obligations.InitSeedsCrc : Prop :=
  (∀ s : State, exec .init s = .next { s with crc := 0xFFFFFFFF#32 }) ∧
  (∀ (s : State) (c : Cmd34), s.busy = false → keepsHandshake s → presents s c →
    opField c = 1#2 →
    step s = .next { s with crc := 0xFFFFFFFF#32, inputs := s.inputs.tail, held := none } ∧
    rspValid s (nextEdge s) = false) ∧
  (∀ s t : State, exec .init s = .next t → exec .init t = .next t)

/-- R105 case 3, R107: the accept of `FOLD w` writes `wreg`, `cnt` and `busy`, and not `crc`. -/
def Obligations.FoldAcceptStartsTheFold : Prop :=
  (∀ (w : Word) (s : State), exec (.fold w) s =
    .next { s with wreg := w, cnt := 0#5, busy := true }) ∧
  (∀ (s : State) (c : Cmd34), s.busy = false → keepsHandshake s → presents s c →
    opField c = 2#2 →
    step s = .next { s with
      wreg := c.setWidth 32, cnt := 0#5, busy := true, inputs := s.inputs.tail, held := none } ∧
    rspValid s (nextEdge s) = false)

/-- R85: an accepted `READ`, whatever its data field, delivers `crc` as it stands and changes no
register; two in a row deliver the same value. -/
def Obligations.ReadDeliversCrc : Prop :=
  (∀ s : State, exec .read s = .next { s with responses := s.responses ++ [s.crc] }) ∧
  (∀ (s : State) (c : Cmd34), s.busy = false → keepsHandshake s → presents s c →
    opField c = 3#2 →
    step s = .next { s with
      responses := s.responses ++ [s.crc], inputs := s.inputs.tail, held := none } ∧
    rspValid s (nextEdge s) = true ∧ rspData s (nextEdge s) = some s.crc) ∧
  (∀ s t u : State, exec .read s = .next t → exec .read t = .next u →
    u.responses = s.responses ++ [s.crc, s.crc])

/-- R80: every command completes when it is accepted, and touches only what its rule names: `INIT`
writes `crc`, `FOLD` writes `wreg`, `cnt` and `busy`, `READ` delivers a response. -/
def Obligations.CommandsCompleteAndTouchOnlyTheirOwn : Prop :=
  ∀ (i : Instr) (s : State), ∃ t : State, exec i s = .next t ∧
    t.inputs = s.inputs ∧ t.held = s.held ∧
    (t.crc ≠ s.crc → i = .init) ∧
    (t.wreg ≠ s.wreg ∨ t.cnt ≠ s.cnt ∨ t.busy ≠ s.busy → ∃ w, i = .fold w) ∧
    (t.responses ≠ s.responses → i = .read)

/-- R84: `fold32` is the loop over `i = 0, ..., 31` of the source's text. -/
def Obligations.FoldIsTheBitSerialLoop : Prop :=
  ∀ c w : Word, fold32 c w =
    (List.range 32).foldl
      (fun (crc : Word) (i : Nat) =>
        if (crc.getLsbD 31 ^^ w.getLsbD (31 - i)) then (crc <<< 1) ^^^ 0x04C11DB7#32
        else crc <<< 1) c

/-! ### The bit level (`41_bit_step.md`) -/

/-- R100: the next register value bit by bit; the feedback bit enters exactly at the set bits of
`POLY`. -/
def Obligations.NextCrcBitByBit : Prop :=
  ∀ (c w : Word) (k : BitVec 5) (j : Nat), j < 32 →
    (step1 c (inputBit w k)).getLsbD j =
      ((decide (0 < j) && c.getLsbD (j - 1)) ^^
        ((c.getLsbD 31 ^^ w.getLsbD (31 - k.toNat)) &&
          decide (j ∈ [0, 1, 2, 4, 5, 7, 8, 10, 11, 12, 16, 22, 23, 26])))

/-- R106: the micro-operation `STEP`. The consumed edge (assumption log 2), the record of responses
(assumption log 7) and the handshake premise on the record `held` (R64; assumption log 4) are not in
R106: they are the model's own fields. -/
def Obligations.StepMicroOperation : Prop :=
  ∀ s : State, s.busy = true → (nextEdge s).rst = false → keepsHandshake s →
    ∃ t : State, step s = .next t ∧
      t.crc = step1 s.crc (s.wreg.getLsbD (31 - s.cnt.toNat)) ∧
      (s.cnt = 31#5 → t.cnt = 0#5 ∧ t.busy = false) ∧
      (s.cnt ≠ 31#5 → t.cnt.toNat = s.cnt.toNat + 1 ∧ t.busy = true) ∧
      t.wreg = s.wreg ∧ t.responses = s.responses ∧ t.inputs = s.inputs.tail

/-- R105: the clock-edge rule, its four cases in their priority. The handshake premise and the next
value of the record `held` are not in R105: they rest on R64 and R147, on the model's reading of them
at reset edges and on its choice of a record (assumption log 4). -/
def Obligations.ClockEdgeRule : Prop :=
  ∀ s : State, keepsHandshake s →
    let e := nextEdge s
    let after : State := { s with
      inputs := s.inputs.tail,
      held := if e.cmdValid && (e.rst || s.busy) then some e.cmd else none }
    (e.rst = true →
      step s = .next { after with crc := 0xFFFFFFFF#32, busy := false, cnt := 0#5 }) ∧
    (e.rst = false → s.busy = true →
      step s = .next { after with
        crc := step1 s.crc (s.wreg.getLsbD (31 - s.cnt.toNat)),
        cnt := if s.cnt = 31#5 then 0#5 else s.cnt + 1#5,
        busy := if s.cnt = 31#5 then false else true }) ∧
    (e.rst = false → s.busy = false → e.cmdValid = true →
      (opField e.cmd = 0#2 → step s = .next after) ∧
      (opField e.cmd = 1#2 → step s = .next { after with crc := 0xFFFFFFFF#32 }) ∧
      (opField e.cmd = 2#2 →
        step s = .next { after with wreg := e.cmd.setWidth 32, cnt := 0#5, busy := true }) ∧
      (opField e.cmd = 3#2 →
        step s = .next { after with responses := s.responses ++ [s.crc] })) ∧
    (e.rst = false → s.busy = false → e.cmdValid = false → step s = .next after)

/-- R63: a command is accepted exactly when it is presented and the block is idle and not in reset;
it is then decoded and takes its effect at that edge; `cmd` is not looked at when nothing is
presented. The handshake premise and the record `held` rest on R64 and on the model's choice of a
record (assumption log 4). -/
def Obligations.AcceptedCommandRunsAtItsEdge : Prop :=
  (∀ (s : State) (i : Instr), acceptedNext s = some i ↔
    (nextEdge s).cmdValid = true ∧ s.busy = false ∧ (nextEdge s).rst = false ∧
      decode (nextEdge s).cmd = i) ∧
  (∀ (s : State) (i : Instr), keepsHandshake s → acceptedNext s = some i →
    step s = exec i { s with inputs := s.inputs.tail, held := none }) ∧
  (∀ (s : State) (r : Bool) (c d : Cmd34) (rest : List Edge),
    step { s with inputs := ⟨r, false, c⟩ :: rest } =
      step { s with inputs := ⟨r, false, d⟩ :: rest })

/-- R64: a command presented to a block that is not ready is not accepted, not dropped and has no
effect at that edge: the edge does what it does when nothing is presented, and the command is
held. -/
def Obligations.HeldCommandHasNoEffect : Prop :=
  ∀ (s : State) (r : Bool) (c d : Cmd34) (rest : List Edge), s.busy = true ∨ r = true →
    s.held = none ∨ s.held = some c →
    ∃ t : State, step { s with inputs := ⟨r, true, c⟩ :: rest } = .next { t with held := some c } ∧
      step { s with inputs := ⟨r, false, d⟩ :: rest, held := none } =
        .next { t with held := none } ∧
      t.responses = s.responses ∧ t.wreg = s.wreg ∧ t.inputs = rest

/-- R140, R147: the one outcome that is not a next state is the refusal of a host that breaks the
handshake of R64; no edge faults. -/
def Obligations.OnlyABrokenHandshakeStops : Prop :=
  ∀ s : State,
    (keepsHandshake s → ∃ t : State, step s = .next t) ∧
    (¬ keepsHandshake s → step s = .refused .handshakeBroken) ∧
    (keepsHandshake s ↔
      ∀ c, s.held = some c → (nextEdge s).cmdValid = true ∧ (nextEdge s).cmd = c) ∧
    (∀ f : Fault, step s ≠ .fault f)

/-- R16, R65: `rsp_valid` is 1 exactly at an edge that accepts a `READ`, `rsp_data` is then `crc`, and
what the host has received is what those edges carried, in order. The record of responses, its order
and that a reset edge keeps it are the model's choice (assumption log 7), and so is that `rsp_data`
has no value while `rsp_valid == 0` (assumption log 6). -/
def Obligations.ResponsesAreTheAcceptedReads : Prop :=
  (∀ (s : State) (e : Edge), rspValid s e = true ↔
    e.cmdValid = true ∧ s.busy = false ∧ e.rst = false ∧ opField e.cmd = 3#2) ∧
  (∀ s : State, rspValid s (nextEdge s) = true ↔ acceptedNext s = some .read) ∧
  (∀ (s : State) (e : Edge), rspValid s e = true → rspData s e = some s.crc) ∧
  (∀ s t : State, step s = .next t →
    t.responses = s.responses ++ (rspData s (nextEdge s)).toList ∧
    (rspValid s (nextEdge s) = true → t.crc = s.crc))

/-- R84, R107, R108, R115: whatever a host that keeps the handshake presents meanwhile, the accept of
`FOLD w` writes `wreg`, `cnt` and `busy` and not `crc`, and each of the next 32 edges without a reset
performs one step, with `cnt` counting them and the last clearing `busy`. After `j` of them `crc` is
`c_j`, which the spec derives (R108). That no response is given (R115) is said over the model's record
(assumption log 7). -/
def Obligations.EveryFoldFollowsItsTrace : Prop :=
  ∀ (s t : State) (c : Cmd34) (w : Word) (j : Nat), s.busy = false → presents s c →
    decode c = .fold w → j ≤ 32 → (∀ k, k < j → (edgeAhead s (k + 1)).rst = false) →
    run (j + 1) s = .next t →
    t.crc = foldSteps j s.crc w ∧ t.wreg = w ∧ t.responses = s.responses ∧
    (j < 32 → t.cnt.toNat = j ∧ t.busy = true ∧ ∀ e, cmdReady t e = false) ∧
    (j = 32 → t.crc = fold32 s.crc w ∧ t.cnt = 0#5 ∧ t.busy = false ∧
      ∀ e : Edge, e.rst = false → cmdReady t e = true)

/-- R107, R108: a fold edge by edge, the whole state. After the accepting edge and `j` more the register holds `c_j`
of R84, `wreg` the word and `cnt` is `j`; after 32 the block is idle with `fold32`. The host presents
nothing meanwhile, or holds one command. -/
def Obligations.FoldRunsThirtyTwoSteps : Prop :=
  ∀ (s : State) (w : Word) (waiting : Edge) (rest : List Edge), s.busy = false → s.held = none →
    waiting.rst = false →
    s.inputs = presentEdge (encode (.fold w)) :: (List.replicate 32 waiting ++ rest) →
    (∀ j, j ≤ 31 → run (j + 1) s = .next { s with
      crc := foldSteps j s.crc w, wreg := w, cnt := BitVec.ofNat 5 j, busy := true,
      inputs := List.replicate (32 - j) waiting ++ rest,
      held := if 0 < j ∧ waiting.cmdValid = true then some waiting.cmd else none }) ∧
    run 33 s = .next { s with
      crc := fold32 s.crc w, wreg := w, cnt := 0#5, busy := false, inputs := rest,
      held := if waiting.cmdValid = true then some waiting.cmd else none }

/-- R172: the edges a command keeps the block unready after the one that accepts it: 32 for `FOLD`,
none for the others. -/
def Obligations.EdgesUntilReadyAgain : Prop :=
  ∀ (s : State) (i : Instr) (waiting : Edge) (rest : List Edge), s.busy = false → s.held = none →
    waiting.rst = false →
    s.inputs = presentEdge (encode i) :: (List.replicate (edgesAfter i) waiting ++ rest) →
    (∀ k, k < edgesAfter i → ∃ t : State, run (k + 1) s = .next t ∧ cmdReady t waiting = false) ∧
    (∃ t : State, run (edgesAfter i + 1) s = .next t ∧ cmdReady t waiting = true ∧
      t.inputs = rest ∧ t.crc = eff i s.crc ∧ t.responses = s.responses ++ resp i s.crc)

/-- R64, R174: from every busy state the fold in progress ends after the `32 - cnt` steps it has
left, and a command held meanwhile is accepted at the next edge. -/
def Obligations.EveryFoldEndsAndHeldCommandIsAccepted : Prop :=
  ∀ (s : State) (c : Cmd34) (rest : List Edge), s.busy = true → s.held = none ∨ s.held = some c →
    s.inputs = List.replicate (32 - s.cnt.toNat) (presentEdge c) ++ presentEdge c :: rest →
    ∃ t : State, run (32 - s.cnt.toNat) s = .next t ∧ t.busy = false ∧ t.cnt = 0#5 ∧
      t.wreg = s.wreg ∧ t.held = some c ∧ t.responses = s.responses ∧
      t.crc = (settle s).crc ∧
      step t = exec (decode c) { t with inputs := rest, held := none }

/-- R21, R24, R25, R26: the events that write each register, for every step of every state. -/
def Obligations.RegistersAreWrittenOnlyWhereNamed : Prop :=
  ∀ s t : State, step s = .next t →
    (t.crc ≠ s.crc →
      (nextEdge s).rst = true ∨ s.busy = true ∨ acceptedNext s = some .init) ∧
    (t.wreg ≠ s.wreg → acceptedNext s = some (.fold t.wreg)) ∧
    (t.cnt ≠ s.cnt →
      (nextEdge s).rst = true ∨ s.busy = true ∨ ∃ w, acceptedNext s = some (.fold w)) ∧
    (s.busy = false → t.busy = true → ∃ w, acceptedNext s = some (.fold w)) ∧
    (s.busy = true → t.busy = false → (nextEdge s).rst = true ∨ s.cnt = 31#5)

/-! ### Invariants (`10_state.md` R27) -/

/-- The invariant holds after reset (R27, R35). Its clause on the record `held` is the model's
(assumption logs 4 and 18). -/
def Obligations.ResetMeetsTheInvariant : Prop := Invariant State.reset

/-- Every step keeps the invariant, from every state that has it. The first clause of the invariant,
an idle block has `cnt == 0`, is I-a of R27. The second, a fold that has performed no step leaves no
command held, is not in R27: it is the model's, read from R63 and R107, over the model's record `held`
(assumption logs 4 and 18). -/
def Obligations.EveryStepKeepsTheInvariant : Prop :=
  ∀ s t : State, Invariant s → step s = .next t → Invariant t

/-- R24, R27 (I-b): whenever a run from an idle state is busy, exactly `cnt` steps of the current fold
have been performed, on the word of the `FOLD` that started it, which `wreg` still holds. -/
def Obligations.BusyCountsTheStepsOfItsFold : Prop :=
  ∀ (s t : State) (n : Nat), s.busy = false → run n s = .next t → t.busy = true →
    ∃ (k : Nat) (u : State), n = k + 1 + t.cnt.toNat ∧ run k s = .next u ∧ u.busy = false ∧
      acceptedNext u = some (.fold t.wreg) ∧ t.crc = foldSteps t.cnt.toNat u.crc t.wreg

/-! ### Word level and bit level (`40_word_commands.md` R86 to R88, `41_bit_step.md` R108) -/

/-- R86, R108: every edge of the bit-level machine does at the next word boundary what its word-level
events do: a reset, one accepted command, or nothing. -/
def Obligations.StepRefinesWordLevel : Prop :=
  ∀ s t : State, step s = .next t →
    settledCrc t = (eventRun (eventsNext s) (settledCrc s)).1 ∧
    t.responses = s.responses ++ (eventRun (eventsNext s) (settledCrc s)).2

/-- R86, R108: a run of the bit-level machine gives the same responses, and the same `crc` at every
idle state, as the word-level run of the events it accepted. -/
def Obligations.RunRefinesWordLevel : Prop :=
  ∀ (s t : State) (n : Nat), s.busy = false → run n s = .next t →
    t.responses = s.responses ++ (eventRun (eventsOf n s) s.crc).2 ∧
    (t.busy = false → t.crc = (eventRun (eventsOf n s) s.crc).1)

/-- R86, R87: the effect of a list of commands is the composition of their effects in order; a `READ`
after a list answers the `crc` the list leaves. -/
def Obligations.CommandListsCompose : Prop :=
  (∀ (is js : List Instr) (c : Word), wordRun (is ++ js) c =
    ((wordRun js (wordRun is c).1).1, (wordRun is c).2 ++ (wordRun js (wordRun is c).1).2)) ∧
  (∀ (ws : List Word) (c : Word), wordRun (ws.map Instr.fold ++ [.read]) c =
    (foldWords c ws, [foldWords c ws]))

/-- R166: `NOP`s and extra `READ`s may stand anywhere without effect on the final `crc`, and `NOP`s
without effect on the responses. -/
def Obligations.NopAndReadDoNotDisturb : Prop :=
  ∀ (is : List Instr) (c : Word),
    wordRun (is.filter (fun i => decide (i ≠ .nop))) c = wordRun is c ∧
    (wordRun (is.filter (fun i => decide (i ≠ .nop ∧ i ≠ .read))) c).1 = (wordRun is c).1

/-- R123, R165: a reset may stand in for the `INIT` of a message. -/
def Obligations.ResetStandsInForInit : Prop :=
  (∀ (es : List Event) (c : Word),
    eventRun (.reset :: es) c = eventRun (.accept .init :: es) c) ∧
  (∀ d : List Byte, wordRun ((wordsOf d).map Instr.fold ++ [.read]) State.reset.crc =
    (checksum d, [checksum d]))

/-- R170: without an `INIT` the next message continues the old checksum, and the result is that of
the concatenated word streams. -/
def Obligations.MissingInitContinuesTheOldChecksum : Prop :=
  ∀ (p d : List Byte),
    wordRun ((wordsOf d).map Instr.fold ++ [.read]) (checksum p) =
      (foldWords Config.seed (wordsOf p ++ wordsOf d),
        [foldWords Config.seed (wordsOf p ++ wordsOf d)]) ∧
    (p.length % 4 = 0 → foldWords Config.seed (wordsOf p ++ wordsOf d) = checksum (p ++ d))

/-- R49: `INIT` is idempotent, a repeated `READ` returns the same value and changes nothing, and
`FOLD` is not idempotent. -/
def Obligations.IdempotenceOfCommands : Prop :=
  (∀ c : Word, wordRun [.init, .init] c = wordRun [.init] c) ∧
  (∀ c : Word, wordRun [.read, .read] c = (c, [c, c])) ∧
  (∃ c w : Word, wordRun [.fold w, .fold w] c ≠ wordRun [.fold w] c) ∧
  (∃ c : Word, wordRun [.fold 0#32] c ≠ wordRun [] c)

/-! ### What the host cannot see (`10_state.md` R24, R34; `41_bit_step.md` R115) -/

/-- R24, R88, U2: the value `wreg` holds while the block is idle is never read: changing it changes
nothing but `wreg` itself in any later state, and not even that once a fold is in progress. -/
def Obligations.IdleWregIsNeverRead : Prop :=
  ∀ (s t : State) (v : Word) (n : Nat), s.busy = false → run n s = .next t →
    ∃ x : Word, run n { s with wreg := v } = .next { t with wreg := x } ∧
      (t.busy = true → x = t.wreg)

/-- R34, R115: while a fold is in progress no command is accepted and no response given, and a
different `crc` gives the same responses and the same sequencer until the fold is done. That
`rsp_data` has no value meanwhile is the model's choice (assumption log 6): the spec lets the port
carry any value while `rsp_valid == 0` (U3, D21). -/
def Obligations.IntermediateCrcIsUnobservable : Prop :=
  (∀ (s : State) (e : Edge), s.busy = true →
    cmdReady s e = false ∧ rspValid s e = false ∧ rspData s e = none) ∧
  (∀ (s t : State) (v : Word) (n : Nat), s.busy = true → n ≤ 32 - s.cnt.toNat →
    run n s = .next t → ∃ x : Word, run n { s with crc := v } = .next { t with crc := x })

/-- R16, R153: a run that is over accepts no command and answers nothing more, whatever edges are to
come, and its registers stay as they are; only a reset among those edges writes `crc` and `cnt`
(R160). Beyond the end of the list of edges the host's silence is the model's choice (assumption
log 2). -/
def Obligations.FinishedRunStaysAsItIs : Prop :=
  ∀ (s : State) (n : Nat), runOver s →
    let resets := (s.inputs.take n).any (fun e => e.rst)
    run n s = .next { s with
      crc := if resets then 0xFFFFFFFF#32 else s.crc,
      cnt := if resets then 0#5 else s.cnt,
      inputs := s.inputs.drop n } ∧
    (∀ t : State, run n s = .next t → runOver t) ∧
    (∀ i : Instr, Event.accept i ∉ eventsOf n s)

/-! ### Laws of the fold (`41_bit_step.md` R110 to R113) -/

/-- R110: the result depends on `c` and `w` only through `c ^ w`. -/
def Obligations.FoldDependsOnTheXorOnly : Prop :=
  (∀ c w : Word, fold32 c w = fold32 (c ^^^ w) 0#32) ∧
  (∀ c w : Word, fold32 c w = fold32 w c) ∧
  (∀ w : Word, fold32 0xFFFFFFFF#32 w = fold32 0#32 (~~~w))

/-- R111: `step1` and `fold32` are linear over GF(2). -/
def Obligations.FoldIsLinearOverGF2 : Prop :=
  (∀ (c1 c2 : Word) (b1 b2 : Bool),
    step1 (c1 ^^^ c2) (b1 ^^ b2) = step1 c1 b1 ^^^ step1 c2 b2) ∧
  (∀ c1 c2 w1 w2 : Word, fold32 (c1 ^^^ c2) (w1 ^^^ w2) = fold32 c1 w1 ^^^ fold32 c2 w2) ∧
  step1 0#32 false = 0#32 ∧ fold32 0#32 0#32 = 0#32

/-- R112: `step1Inverse` inverts `step1` on both sides, for each input bit. -/
def Obligations.StepIsInvertible : Prop :=
  ∀ (v : Word) (b : Bool), step1Inverse (step1 v b) b = v ∧ step1 (step1Inverse v b) b = v

/-- R112: `fold32` is a bijection in each argument, and is zero exactly on equal arguments. -/
def Obligations.FoldIsBijectiveInEachArgument : Prop :=
  (∀ w : Word, Function.Bijective (fun c => fold32 c w)) ∧
  (∀ c : Word, Function.Bijective (fun w => fold32 c w)) ∧
  (∀ c w : Word, fold32 c w = 0#32 ↔ w = c)

/-- R113: the shift-register datapath computes the same `crc` at every step, and its register ends
as 0. -/
def Obligations.ShiftRegisterDatapathAgrees : Prop :=
  (∀ (n : Nat) (c w : Word), n ≤ 32 →
    (shiftSteps n c w).1 = foldSteps n c w ∧ (shiftSteps n c w).2 = w <<< n) ∧
  (∀ c w : Word, shiftSteps 32 c w = (fold32 c w, 0#32))

/-- R111: folding a word is the remainder of a polynomial over GF(2) on division by the generator:
one step multiplies by `x`, a fold by `x^32`. -/
def Obligations.FoldIsPolynomialRemainder : Prop :=
  (∀ c : Word, wordPoly (step1 c false) = (wordPoly c * Polynomial.X).modByMonic generator) ∧
  (∀ c w : Word, wordPoly (fold32 c w) =
    ((wordPoly c + wordPoly w) * Polynomial.X ^ 32).modByMonic generator)

/-- R3: the full generator, written out. -/
def Obligations.GeneratorIsTheListedPolynomial : Prop :=
  generator = (Polynomial.X ^ 32 + Polynomial.X ^ 26 + Polynomial.X ^ 23 + Polynomial.X ^ 22 +
    Polynomial.X ^ 16 + Polynomial.X ^ 12 + Polynomial.X ^ 11 + Polynomial.X ^ 10 +
    Polynomial.X ^ 8 + Polynomial.X ^ 7 + Polynomial.X ^ 5 + Polynomial.X ^ 4 +
    Polynomial.X ^ 2 + Polynomial.X + 1 : Polynomial (ZMod 2)) ∧ generator.Monic

/-! ### The host's procedures (`20_memory.md`, `42_compute_sequence.md`) -/

/-- R44, R121: where the bytes of a chunk land in the word, and that packing is a bijection. -/
def Obligations.PackPlacesLowestOffsetLast : Prop :=
  (∀ b0 b1 b2 b3 : Byte,
    (pack b0 b1 b2 b3).extractLsb' 24 8 = b3 ∧ (pack b0 b1 b2 b3).extractLsb' 16 8 = b2 ∧
    (pack b0 b1 b2 b3).extractLsb' 8 8 = b1 ∧ (pack b0 b1 b2 b3).extractLsb' 0 8 = b0) ∧
  (∀ w : Word, pack (w.extractLsb' 0 8) (w.extractLsb' 8 8) (w.extractLsb' 16 8)
    (w.extractLsb' 24 8) = w)

/-- R42, R43, R44, R46: the word stream has `ceil(n / 4)` words, and word `k` is packed from the
bytes at offsets `4k` to `4k + 3`, a byte beyond the end taken as zero. -/
def Obligations.WordStreamOfTheBuffer : Prop :=
  ∀ d : List Byte, (wordsOf d).length = (d.length + 3) / 4 ∧
    ∀ k, k < (d.length + 3) / 4 → (wordsOf d)[k]? =
      some (pack (d.getD (4 * k) 0#8) (d.getD (4 * k + 1) 0#8) (d.getD (4 * k + 2) 0#8)
        (d.getD (4 * k + 3) 0#8))

/-- R122: `FOLDB` of 1 to 4 bytes is the `FOLD` of the bytes padded with zeros on the right; there is
none of 0 bytes, nor of more than 4. -/
def Obligations.FoldbPadsOnTheRight : Prop :=
  (∀ b0 b1 b2 b3 : Byte,
    foldb [b0] = some (.fold (pack b0 0#8 0#8 0#8)) ∧
    foldb [b0, b1] = some (.fold (pack b0 b1 0#8 0#8)) ∧
    foldb [b0, b1, b2] = some (.fold (pack b0 b1 b2 0#8)) ∧
    foldb [b0, b1, b2, b3] = some (.fold (pack b0 b1 b2 b3))) ∧
  (∀ chunk : List Byte, chunk.length = 0 ∨ 4 < chunk.length → foldb chunk = none)

/-- R123: `COMPUTE d` is defined for every message, expands to `INIT`, the `FOLD`s of the word stream
and `READ`, `nw + 2` commands, and answers the checksum from whatever `crc` it starts with. -/
def Obligations.ComputeExpandsToItsCommands : Prop :=
  ∀ d : List Byte, compute d = some (.init :: (wordsOf d).map Instr.fold ++ [.read]) ∧
    ∀ is, compute d = some is → is.length = (d.length + 3) / 4 + 2 ∧
      ∀ c : Word, wordRun is c = (checksum d, [checksum d])

/-- R123, R166, R172: from any state that meets the invariant and is idle, a host that presents the
commands of `COMPUTE d` as early as it can receives the checksum after exactly `2 + 33 * ceil(n / 4)`
edges. -/
def Obligations.ComputeOnTheBlockDeliversTheChecksum : Prop :=
  ∀ (s : State) (d : List Byte) (is : List Instr) (rest : List Edge), Invariant s → s.busy = false →
    s.held = none → compute d = some is → s.inputs = eagerEdges 0 is ++ rest →
    ∃ t : State, run (2 + 33 * ((d.length + 3) / 4)) s = .next t ∧ t.crc = checksum d ∧
      t.responses = s.responses ++ [checksum d] ∧ t.busy = false ∧ t.cnt = 0#5 ∧
      t.held = none ∧ t.inputs = rest ∧
      t.wreg = (wordsOf d).getLastD s.wreg

/-- R124: the checksum of the empty message is the untouched seed. -/
def Obligations.EmptyMessageGivesTheSeed : Prop :=
  compute [] = some [.init, .read] ∧ checksum [] = 0xFFFFFFFF#32 ∧
  ∀ c : Word, wordRun [.init, .read] c = (0xFFFFFFFF#32, [0xFFFFFFFF#32])

/-- R125: a message and the same message with explicit zeros up to the next multiple of 4 have the
same word stream, the same commands and the same checksum; the two instances of the rule, the equal
one with its value and the one whose zeros cross a chunk boundary. -/
def Obligations.PaddingIsExplicitZeros : Prop :=
  (∀ d : List Byte, d.length % 4 ≠ 0 →
    wordsOf (d ++ List.replicate (4 - d.length % 4) 0#8) = wordsOf d ∧
    compute (d ++ List.replicate (4 - d.length % 4) 0#8) = compute d ∧
    checksum (d ++ List.replicate (4 - d.length % 4) 0#8) = checksum d) ∧
  compute [0x01#8] = some [.init, .fold 0x00000001#32, .read] ∧
  compute [0x01#8, 0#8, 0#8, 0#8] = some [.init, .fold 0x00000001#32, .read] ∧
  checksum [0x01#8] = 0xC3C5C0CC#32 ∧
  wordsOf [0x01#8, 0#8, 0#8, 0#8, 0#8] = [0x00000001#32, 0x00000000#32] ∧
  checksum [0x01#8, 0#8, 0#8, 0#8, 0#8] ≠ checksum [0x01#8]

/-- R128: what appending `0x01` does, exactly. -/
def Obligations.LengthSensitivityExact : Prop :=
  ∀ d : List Byte,
    (d.length % 4 ≠ 0 → checksum (d ++ [0x01#8]) ≠ checksum d) ∧
    (d.length % 4 = 0 →
      (checksum (d ++ [0x01#8]) = checksum d ↔ checksum d = 0x2EF1C59C#32))

/-- R129: every 32-bit value is the checksum of some message of four bytes. -/
def Obligations.EveryValueIsAChecksum : Prop :=
  ∀ v : Word, ∃ b0 b1 b2 b3 : Byte, checksum [b0, b1, b2, b3] = v

/-- R51, R130: the checksum is the byte-serial non-reflected CRC over the zero-padded message with
every chunk of four bytes reversed. -/
def Obligations.ChecksumIsByteSerialCrcOfReversedChunks : Prop :=
  ∀ d : List Byte, checksum d = (entryOrder d).foldl byteStep 0xFFFFFFFF#32

/-- R125, R126, R127, R129: the values the spec derives. -/
def Obligations.ListedChecksums : Prop :=
  checksum [0x00#8, 0x00#8, 0x00#8, 0x00#8] = 0xC704DD7B#32 ∧
  checksum [0xDE#8, 0xAD#8, 0xBE#8, 0xEF#8] = 0xEDE062E3#32 ∧
  checksum [0x01#8] = 0xC3C5C0CC#32 ∧
  checksum [0xFF#8, 0xFF#8, 0xFF#8, 0xFF#8] = 0x00000000#32 ∧
  checksum [0xB6#8, 0x9B#8, 0x50#8, 0xB9#8] = 0xFFFFFFFF#32 ∧
  checksum [0x62#8, 0x3A#8, 0x0E#8, 0xD1#8] = 0x2EF1C59C#32

/-! ### The model's own convention (assumption logs 12 and 13) -/

/-- The model's choice of assumption log 12: a word placed by `withFetchWord` is the command the next
step runs, in an idle state that differs from the given one only as far as a fold in progress is
finished and a held command dropped. -/
def Obligations.FetchedWordIsTheNextCommandRun : Prop :=
  ∀ (s : State) (nbits w : Nat) (i : Instr), decodeTableWord nbits w = some i →
    ∃ u : State, step (s.withFetchWord nbits w) = exec i u ∧ u.busy = false ∧ u.held = none ∧
      u.inputs = s.inputs ∧ u.responses = s.responses ∧ u.wreg = s.wreg ∧ u.crc = settledCrc s ∧
      (s.busy = false → u = { s with held := none })
end

