-- ==== Sys2Proof/Laws/Message.lean ====
section
/-! SUPPORT. The word stream and the word-level run: one equation per shape. -/

namespace Sys2Proof.Machine

@[simp] theorem wordsOf_nil : wordsOf [] = [] := rfl

@[simp] theorem wordsOf_one (b0 : Byte) : wordsOf [b0] = [pack b0 0#8 0#8 0#8] := rfl

@[simp] theorem wordsOf_two (b0 b1 : Byte) : wordsOf [b0, b1] = [pack b0 b1 0#8 0#8] := rfl

@[simp] theorem wordsOf_three (b0 b1 b2 : Byte) :
    wordsOf [b0, b1, b2] = [pack b0 b1 b2 0#8] := rfl

@[simp] theorem wordsOf_chunk (b0 b1 b2 b3 : Byte) (rest : List Byte) :
    wordsOf (b0 :: b1 :: b2 :: b3 :: rest) = pack b0 b1 b2 b3 :: wordsOf rest := rfl

@[simp] theorem foldWords_nil (c : Word) : foldWords c [] = c := rfl

@[simp] theorem foldWords_cons (c w : Word) (ws : List Word) :
    foldWords c (w :: ws) = foldWords (fold32 c w) ws := rfl

theorem foldWords_append (c : Word) (ws vs : List Word) :
    foldWords c (ws ++ vs) = foldWords (foldWords c ws) vs := List.foldl_append

@[simp] theorem padChunk_length {chunk : List Byte} (h : chunk.length ≤ 4) :
    (padChunk chunk).length = 4 := by
  simp [padChunk, Config.chunkBytes]
  omega

/-- `MemRead` answers exactly the bytes asked for. -/
theorem memRead_length {buf bytes : List Byte} {addr n : Nat}
    (h : memRead buf addr n = some bytes) : bytes.length = n := by
  unfold memRead at h
  split at h
  · cases h
    simp
    omega
  · cases h

/-- `MemRead` beyond a known beginning of the buffer is `MemRead` in the rest of it. -/
theorem memRead_append (front rest : List Byte) (addr n : Nat) :
    memRead (front ++ rest) (front.length + addr) n = memRead rest addr n := by
  unfold memRead
  split <;> split <;> rename_i h1 h2
  · congr 2
    simp
  · simp at h1
    omega
  · simp at h1
    omega
  · rfl

@[simp] theorem wordRun_nil (c : Word) : wordRun [] c = (c, []) := rfl

theorem wordRun_cons (i : Instr) (is : List Instr) (c : Word) :
    wordRun (i :: is) c = ((wordRun is (eff i c)).1, resp i c ++ (wordRun is (eff i c)).2) := rfl

theorem eventRun_cons (e : Event) (es : List Event) (c : Word) :
    eventRun (e :: es) c =
      ((eventRun es (eventEff e c)).1, eventResp e c ++ (eventRun es (eventEff e c)).2) := rfl

end Sys2Proof.Machine
end

