-- ==== Sys2Proof/Laws/State.lean ====
section
/-! SUPPORT. One lemma per field per update of the state: a setter writes its own field and leaves
the six others. -/

namespace Sys2Proof.Machine

@[simp] theorem State.setCrc_crc (s : State) (v : Word) : (s.setCrc v).crc = v := rfl
@[simp] theorem State.setCrc_wreg (s : State) (v : Word) : (s.setCrc v).wreg = s.wreg := rfl
@[simp] theorem State.setCrc_cnt (s : State) (v : Word) : (s.setCrc v).cnt = s.cnt := rfl
@[simp] theorem State.setCrc_busy (s : State) (v : Word) : (s.setCrc v).busy = s.busy := rfl
@[simp] theorem State.setCrc_inputs (s : State) (v : Word) : (s.setCrc v).inputs = s.inputs := rfl
@[simp] theorem State.setCrc_held (s : State) (v : Word) : (s.setCrc v).held = s.held := rfl
@[simp] theorem State.setCrc_responses (s : State) (v : Word) : (s.setCrc v).responses = s.responses := rfl

@[simp] theorem State.setWreg_crc (s : State) (v : Word) : (s.setWreg v).crc = s.crc := rfl
@[simp] theorem State.setWreg_wreg (s : State) (v : Word) : (s.setWreg v).wreg = v := rfl
@[simp] theorem State.setWreg_cnt (s : State) (v : Word) : (s.setWreg v).cnt = s.cnt := rfl
@[simp] theorem State.setWreg_busy (s : State) (v : Word) : (s.setWreg v).busy = s.busy := rfl
@[simp] theorem State.setWreg_inputs (s : State) (v : Word) : (s.setWreg v).inputs = s.inputs := rfl
@[simp] theorem State.setWreg_held (s : State) (v : Word) : (s.setWreg v).held = s.held := rfl
@[simp] theorem State.setWreg_responses (s : State) (v : Word) : (s.setWreg v).responses = s.responses := rfl

@[simp] theorem State.setCnt_crc (s : State) (v : BitVec 5) : (s.setCnt v).crc = s.crc := rfl
@[simp] theorem State.setCnt_wreg (s : State) (v : BitVec 5) : (s.setCnt v).wreg = s.wreg := rfl
@[simp] theorem State.setCnt_cnt (s : State) (v : BitVec 5) : (s.setCnt v).cnt = v := rfl
@[simp] theorem State.setCnt_busy (s : State) (v : BitVec 5) : (s.setCnt v).busy = s.busy := rfl
@[simp] theorem State.setCnt_inputs (s : State) (v : BitVec 5) : (s.setCnt v).inputs = s.inputs := rfl
@[simp] theorem State.setCnt_held (s : State) (v : BitVec 5) : (s.setCnt v).held = s.held := rfl
@[simp] theorem State.setCnt_responses (s : State) (v : BitVec 5) : (s.setCnt v).responses = s.responses := rfl

@[simp] theorem State.setBusy_crc (s : State) (v : Bool) : (s.setBusy v).crc = s.crc := rfl
@[simp] theorem State.setBusy_wreg (s : State) (v : Bool) : (s.setBusy v).wreg = s.wreg := rfl
@[simp] theorem State.setBusy_cnt (s : State) (v : Bool) : (s.setBusy v).cnt = s.cnt := rfl
@[simp] theorem State.setBusy_busy (s : State) (v : Bool) : (s.setBusy v).busy = v := rfl
@[simp] theorem State.setBusy_inputs (s : State) (v : Bool) : (s.setBusy v).inputs = s.inputs := rfl
@[simp] theorem State.setBusy_held (s : State) (v : Bool) : (s.setBusy v).held = s.held := rfl
@[simp] theorem State.setBusy_responses (s : State) (v : Bool) : (s.setBusy v).responses = s.responses := rfl

@[simp] theorem State.setInputs_crc (s : State) (v : List Edge) : (s.setInputs v).crc = s.crc := rfl
@[simp] theorem State.setInputs_wreg (s : State) (v : List Edge) : (s.setInputs v).wreg = s.wreg := rfl
@[simp] theorem State.setInputs_cnt (s : State) (v : List Edge) : (s.setInputs v).cnt = s.cnt := rfl
@[simp] theorem State.setInputs_busy (s : State) (v : List Edge) : (s.setInputs v).busy = s.busy := rfl
@[simp] theorem State.setInputs_inputs (s : State) (v : List Edge) : (s.setInputs v).inputs = v := rfl
@[simp] theorem State.setInputs_held (s : State) (v : List Edge) : (s.setInputs v).held = s.held := rfl
@[simp] theorem State.setInputs_responses (s : State) (v : List Edge) : (s.setInputs v).responses = s.responses := rfl

@[simp] theorem State.setHeld_crc (s : State) (v : Option Cmd34) : (s.setHeld v).crc = s.crc := rfl
@[simp] theorem State.setHeld_wreg (s : State) (v : Option Cmd34) : (s.setHeld v).wreg = s.wreg := rfl
@[simp] theorem State.setHeld_cnt (s : State) (v : Option Cmd34) : (s.setHeld v).cnt = s.cnt := rfl
@[simp] theorem State.setHeld_busy (s : State) (v : Option Cmd34) : (s.setHeld v).busy = s.busy := rfl
@[simp] theorem State.setHeld_inputs (s : State) (v : Option Cmd34) : (s.setHeld v).inputs = s.inputs := rfl
@[simp] theorem State.setHeld_held (s : State) (v : Option Cmd34) : (s.setHeld v).held = v := rfl
@[simp] theorem State.setHeld_responses (s : State) (v : Option Cmd34) : (s.setHeld v).responses = s.responses := rfl

@[simp] theorem State.setResponses_crc (s : State) (v : List Word) : (s.setResponses v).crc = s.crc := rfl
@[simp] theorem State.setResponses_wreg (s : State) (v : List Word) : (s.setResponses v).wreg = s.wreg := rfl
@[simp] theorem State.setResponses_cnt (s : State) (v : List Word) : (s.setResponses v).cnt = s.cnt := rfl
@[simp] theorem State.setResponses_busy (s : State) (v : List Word) : (s.setResponses v).busy = s.busy := rfl
@[simp] theorem State.setResponses_inputs (s : State) (v : List Word) : (s.setResponses v).inputs = s.inputs := rfl
@[simp] theorem State.setResponses_held (s : State) (v : List Word) : (s.setResponses v).held = s.held := rfl
@[simp] theorem State.setResponses_responses (s : State) (v : List Word) : (s.setResponses v).responses = v := rfl

end Sys2Proof.Machine
end

