-- ==== Sys2Proof/Laws/Ops.lean ====
section
/-! SUPPORT. What each shared operation does, said once: field lemmas for the operations of
`Machine/Ops.lean` and `Machine/Sequencer.lean`, the handshake, and the case lemma of the clock edge
that later proofs cite in place of unfolding it. -/

namespace Sys2Proof.Machine

/-! ### The next edge -/

@[simp] theorem popEdge_crc (s : State) : (popEdge s).crc = s.crc := rfl
@[simp] theorem popEdge_wreg (s : State) : (popEdge s).wreg = s.wreg := rfl
@[simp] theorem popEdge_cnt (s : State) : (popEdge s).cnt = s.cnt := rfl
@[simp] theorem popEdge_busy (s : State) : (popEdge s).busy = s.busy := rfl
@[simp] theorem popEdge_inputs (s : State) : (popEdge s).inputs = s.inputs.tail := rfl
@[simp] theorem popEdge_held (s : State) : (popEdge s).held = s.held := rfl
@[simp] theorem popEdge_responses (s : State) : (popEdge s).responses = s.responses := rfl

theorem nextEdge_of_nil {s : State} (h : s.inputs = []) : nextEdge s = quietEdge := by
  simp [nextEdge, h]

theorem nextEdge_of_cons {s : State} {e : Edge} {es : List Edge} (h : s.inputs = e :: es) :
    nextEdge s = e := by
  simp [nextEdge, h]

/-! ### The registers an operation writes -/

@[simp] theorem respond_crc (v : Word) (s : State) : (respond v s).crc = s.crc := rfl
@[simp] theorem respond_wreg (v : Word) (s : State) : (respond v s).wreg = s.wreg := rfl
@[simp] theorem respond_cnt (v : Word) (s : State) : (respond v s).cnt = s.cnt := rfl
@[simp] theorem respond_busy (v : Word) (s : State) : (respond v s).busy = s.busy := rfl
@[simp] theorem respond_inputs (v : Word) (s : State) : (respond v s).inputs = s.inputs := rfl
@[simp] theorem respond_held (v : Word) (s : State) : (respond v s).held = s.held := rfl
@[simp] theorem respond_responses (v : Word) (s : State) :
    (respond v s).responses = s.responses ++ [v] := rfl

@[simp] theorem startFold_crc (w : Word) (s : State) : (startFold w s).crc = s.crc := rfl
@[simp] theorem startFold_wreg (w : Word) (s : State) : (startFold w s).wreg = w := rfl
@[simp] theorem startFold_cnt (w : Word) (s : State) : (startFold w s).cnt = 0#5 := rfl
@[simp] theorem startFold_busy (w : Word) (s : State) : (startFold w s).busy = true := rfl
@[simp] theorem startFold_inputs (w : Word) (s : State) : (startFold w s).inputs = s.inputs := rfl
@[simp] theorem startFold_held (w : Word) (s : State) : (startFold w s).held = s.held := rfl
@[simp] theorem startFold_responses (w : Word) (s : State) :
    (startFold w s).responses = s.responses := rfl

@[simp] theorem resetRegisters_crc (s : State) : (resetRegisters s).crc = Config.seed := rfl
@[simp] theorem resetRegisters_wreg (s : State) : (resetRegisters s).wreg = s.wreg := rfl
@[simp] theorem resetRegisters_cnt (s : State) : (resetRegisters s).cnt = 0#5 := rfl
@[simp] theorem resetRegisters_busy (s : State) : (resetRegisters s).busy = false := rfl
@[simp] theorem resetRegisters_inputs (s : State) : (resetRegisters s).inputs = s.inputs := rfl
@[simp] theorem resetRegisters_held (s : State) : (resetRegisters s).held = s.held := rfl
@[simp] theorem resetRegisters_responses (s : State) :
    (resetRegisters s).responses = s.responses := rfl

@[simp] theorem microStep_crc (s : State) :
    (microStep s).crc = step1 s.crc (inputBit s.wreg s.cnt) := rfl
@[simp] theorem microStep_wreg (s : State) : (microStep s).wreg = s.wreg := rfl
@[simp] theorem microStep_cnt (s : State) : (microStep s).cnt = cntAfterStep s.cnt := rfl
@[simp] theorem microStep_busy (s : State) : (microStep s).busy = busyAfterStep s.cnt := rfl
@[simp] theorem microStep_inputs (s : State) : (microStep s).inputs = s.inputs := rfl
@[simp] theorem microStep_held (s : State) : (microStep s).held = s.held := rfl
@[simp] theorem microStep_responses (s : State) : (microStep s).responses = s.responses := rfl

/-! ### The step counter -/

@[simp] theorem cntAfterStep_last : cntAfterStep 31#5 = 0#5 := rfl
@[simp] theorem busyAfterStep_last : busyAfterStep 31#5 = false := rfl

theorem cntAfterStep_of_ne {k : BitVec 5} (h : k ≠ 31#5) : cntAfterStep k = k + 1#5 := if_neg h

theorem busyAfterStep_of_ne {k : BitVec 5} (h : k ≠ 31#5) : busyAfterStep k = true := by
  simp [busyAfterStep, h]

/-- Before its last step a fold counts up without wrapping (R106). -/
theorem toNat_cntAfterStep {k : BitVec 5} (h : k ≠ 31#5) :
    (cntAfterStep k).toNat = k.toNat + 1 := by
  have hlt : k.toNat < 32 := k.isLt
  have hne : k.toNat ≠ 31 := fun h' => h (BitVec.eq_of_toNat_eq h')
  rw [cntAfterStep_of_ne h, BitVec.toNat_add, BitVec.toNat_ofNat]
  omega

/-! ### The fold -/

@[simp] theorem foldSteps_zero (c w : Word) : foldSteps 0 c w = c := rfl

theorem foldSteps_succ (n : Nat) (c w : Word) :
    foldSteps (n + 1) c w = step1 (foldSteps n c w) (w.getLsbD (31 - n)) := rfl

/-- A `STEP` with `cnt = n` takes `c_n` to `c_(n+1)` (R108). -/
theorem step1_foldSteps {k : BitVec 5} {n : Nat} (h : k.toNat = n) (c w : Word) :
    step1 (foldSteps n c w) (inputBit w k) = foldSteps (n + 1) c w := by
  rw [foldSteps_succ, inputBit, h]

/-! ### The handshake -/

@[simp] theorem handshakeBroken_none (e : Edge) : handshakeBroken none e = false := rfl

theorem handshakeBroken_some_eq_false {c : Cmd34} {e : Edge} :
    handshakeBroken (some c) e = false ↔ e.cmdValid = true ∧ e.cmd = c := by
  simp [handshakeBroken]

/-- A held command that is presented again is not a breach, whatever `rst` does. -/
theorem handshakeBroken_some_self (c : Cmd34) (e : Edge) (hv : e.cmdValid = true)
    (hc : e.cmd = c) : handshakeBroken (some c) e = false :=
  handshakeBroken_some_eq_false.mpr ⟨hv, hc⟩

theorem cmdReady_eq_true {s : State} {e : Edge} :
    cmdReady s e = true ↔ s.busy = false ∧ e.rst = false := by
  simp [cmdReady]

/-- Only a command the block is not ready for is held (R64). -/
theorem heldAfter_of_ready {s : State} {e : Edge} (h : cmdReady s e = true) :
    heldAfter s e = none := by
  simp [heldAfter, h]

theorem heldAfter_eq_some {s : State} {e : Edge} {c : Cmd34} :
    heldAfter s e = some c ↔ e.cmdValid = true ∧ cmdReady s e = false ∧ e.cmd = c := by
  simp [heldAfter, and_assoc]

theorem acceptedAt_eq_some {s : State} {e : Edge} {i : Instr} :
    acceptedAt s e = some i ↔ e.cmdValid = true ∧ cmdReady s e = true ∧ decode e.cmd = i := by
  simp [acceptedAt, and_assoc]

/-! ### The clock edge -/

/-- Everything a clock edge that answers a next state can do (R105). -/
theorem clockEdge_cases {e : Edge} {s t : State} (h : clockEdge e s = .next t) :
    handshakeBroken s.held e = false ∧
      ((e.rst = true ∧ t = resetRegisters (s.setHeld (heldAfter s e))) ∨
        (e.rst = false ∧ s.busy = true ∧ t = microStep (s.setHeld (heldAfter s e))) ∨
        (e.rst = false ∧ s.busy = false ∧ e.cmdValid = true ∧
          exec (decode e.cmd) (s.setHeld (heldAfter s e)) = .next t) ∨
        (e.rst = false ∧ s.busy = false ∧ e.cmdValid = false ∧
          t = s.setHeld (heldAfter s e))) := by
  unfold clockEdge at h
  split at h
  · cases h
  · rename_i hb
    refine ⟨by simpa using hb, ?_⟩
    simp only at h
    split at h
    · rename_i hr
      exact .inl ⟨hr, by simpa using h.symm⟩
    · rename_i hr
      have hr : e.rst = false := by simpa using hr
      split at h
      · rename_i hs
        exact .inr (.inl ⟨hr, hs, by simpa using h.symm⟩)
      · rename_i hs
        have hs : s.busy = false := by simpa using hs
        split at h
        · rename_i hv
          exact .inr (.inr (.inl ⟨hr, hs, hv, h⟩))
        · rename_i hv
          exact .inr (.inr (.inr ⟨hr, hs, by simpa using hv, by simpa using h.symm⟩))

/-- Everything a step that answers a next state can do (R105). -/
theorem step_cases {s t : State} (h : step s = .next t) :
    handshakeBroken s.held (nextEdge s) = false ∧
      (((nextEdge s).rst = true ∧
          t = resetRegisters ((popEdge s).setHeld (heldAfter s (nextEdge s)))) ∨
        ((nextEdge s).rst = false ∧ s.busy = true ∧
          t = microStep ((popEdge s).setHeld (heldAfter s (nextEdge s)))) ∨
        ((nextEdge s).rst = false ∧ s.busy = false ∧ (nextEdge s).cmdValid = true ∧
          exec (decode (nextEdge s).cmd) ((popEdge s).setHeld (heldAfter s (nextEdge s)))
            = .next t) ∨
        ((nextEdge s).rst = false ∧ s.busy = false ∧ (nextEdge s).cmdValid = false ∧
          t = (popEdge s).setHeld (heldAfter s (nextEdge s)))) :=
  clockEdge_cases h

/-- Everything an accepted command can do (R105 case 3). -/
theorem exec_cases {i : Instr} {s t : State} (h : exec i s = .next t) :
    (i = .nop ∧ t = s) ∨ (i = .init ∧ t = s.setCrc Config.seed) ∨
      (∃ w, i = .fold w ∧ t = startFold w s) ∨ (i = .read ∧ t = respond s.crc s) := by
  cases i with
  | nop => exact .inl ⟨rfl, by simpa [exec, execNop] using h.symm⟩
  | init => exact .inr (.inl ⟨rfl, by simpa [exec, execInit] using h.symm⟩)
  | fold w => exact .inr (.inr (.inl ⟨w, rfl, by simpa [exec, execFold] using h.symm⟩))
  | read => exact .inr (.inr (.inr ⟨rfl, by simpa [exec, execRead] using h.symm⟩))

/-! ### Settling -/

/-- An idle block has nothing to finish. -/
theorem settle_of_idle {s : State} (h : s.busy = false) : settle s = s := by
  simp [settle, settleFor, h]

theorem settleFor_setHeld (n : Nat) (s : State) (h : Option Cmd34) :
    settleFor n (s.setHeld h) = (settleFor n s).setHeld h := by
  induction n generalizing s with
  | zero => rfl
  | succ n ih =>
    cases hb : s.busy with
    | true => simp only [settleFor, State.setHeld_busy, hb, if_true]; exact ih (microStep s)
    | false => simp [settleFor, hb]

theorem settleFor_setInputs (n : Nat) (s : State) (es : List Edge) :
    settleFor n (s.setInputs es) = (settleFor n s).setInputs es := by
  induction n generalizing s with
  | zero => rfl
  | succ n ih =>
    cases hb : s.busy with
    | true => simp only [settleFor, State.setInputs_busy, hb, if_true]; exact ih (microStep s)
    | false => simp [settleFor, hb]

/-- What is held does not matter to the fold in progress. -/
theorem settle_setHeld (s : State) (h : Option Cmd34) :
    settle (s.setHeld h) = (settle s).setHeld h := settleFor_setHeld _ s h

/-- What the host will drive does not matter to the fold in progress. -/
theorem settle_setInputs (s : State) (es : List Edge) :
    settle (s.setInputs es) = (settle s).setInputs es := settleFor_setInputs _ s es

theorem settleFor_inputs (n : Nat) (s : State) : (settleFor n s).inputs = s.inputs := by
  induction n generalizing s with
  | zero => rfl
  | succ n ih =>
    unfold settleFor
    split
    · rw [ih, microStep_inputs]
    · rfl

theorem settleFor_responses (n : Nat) (s : State) :
    (settleFor n s).responses = s.responses := by
  induction n generalizing s with
  | zero => rfl
  | succ n ih =>
    unfold settleFor
    split
    · rw [ih, microStep_responses]
    · rfl

/-- With as many steps as are left (`32 - cnt`), a fold in progress ends (R107). -/
theorem settleFor_busy (n : Nat) (s : State) (h : 32 ≤ n + s.cnt.toNat) :
    (settleFor n s).busy = false := by
  induction n generalizing s with
  | zero => exact absurd s.cnt.isLt (by omega)
  | succ n ih =>
    unfold settleFor
    split
    · by_cases hk : s.cnt = 31#5
      · have hb : (microStep s).busy = false := by simp [hk]
        cases n with
        | zero => exact hb
        | succ n =>
          unfold settleFor
          rw [if_neg (by simp [hk])]
          exact hb
      · apply ih
        rw [microStep_cnt, toNat_cntAfterStep hk]
        omega
    · rename_i hb
      simpa using hb

/-- Settling leaves the block idle (R107). -/
theorem settle_busy (s : State) : (settle s).busy = false :=
  settleFor_busy 32 s (by omega)

/-- More steps than a fold has left change nothing. -/
theorem settleFor_of_enough (n : Nat) (s : State) (h : 32 ≤ n + s.cnt.toNat) :
    ∀ m, n ≤ m → settleFor m s = settleFor n s := by
  induction n generalizing s with
  | zero => exact absurd s.cnt.isLt (by omega)
  | succ n ih =>
    intro m hm
    obtain ⟨m, rfl⟩ : ∃ k, m = k + 1 := ⟨m - 1, by omega⟩
    unfold settleFor
    split
    · by_cases hk : s.cnt = 31#5
      · have stop : ∀ k, settleFor k (microStep s) = microStep s := by
          intro k
          cases k <;> simp [settleFor, hk]
        rw [stop, stop]
      · apply ih _ _ _ (by omega)
        rw [microStep_cnt, toNat_cntAfterStep hk]
        omega
    · rfl

/-- A `STEP` of the fold in progress does not change what the fold comes to (R108). -/
theorem settle_microStep {s : State} (hb : s.busy = true) : settle (microStep s) = settle s := by
  have h : settleFor 33 s = settleFor 32 (microStep s) := by
    rw [settleFor]
    simp [hb]
  rw [settle, settle, Config.nstep, ← h, settleFor_of_enough 32 s (by omega) 33 (by omega)]

end Sys2Proof.Machine
end

