-- ==== Sys2Proof/Laws/PerInstr.lean ====
section
/-! SUPPORT. Per-command facts, one lemma per constructor of `Instr`. Family `TableRow`: the word a
command is encoded as matches its own row of the opcode map (`30_encoding.md` R61), whose mask is
`0x300000000`. -/

namespace Sys2Proof.Laws.TableRow

/-- The `match` value of the command's row of R61. -/
def matchWord : Instr → Cmd34
  | .nop => 0x000000000#34
  | .init => 0x100000000#34
  | .fold _ => 0x200000000#34
  | .read => 0x300000000#34

/-- The command is well formed, and its word matches its row of the opcode map. -/
def Statement (i : Instr) : Prop :=
  i.wellFormed = true ∧ encode i &&& 0x300000000#34 = matchWord i

theorem nop : Statement .nop := ⟨rfl, by decide⟩

theorem init : Statement .init := ⟨rfl, by decide⟩

theorem fold (w : Word) : Statement (.fold w) := by
  refine ⟨rfl, BitVec.eq_of_getLsbD_eq fun j hj => ?_⟩
  rw [BitVec.getLsbD_and, encode, matchWord, BitVec.getLsbD_append]
  by_cases h : j < 32
  · have hm : (0x300000000#34).getLsbD j = false := by interval_cases j <;> decide
    have hr : (0x200000000#34).getLsbD j = false := by interval_cases j <;> decide
    rw [hm, hr, Bool.and_false]
  · rw [if_neg h]
    interval_cases j <;> first | omega | decide

theorem read : Statement .read := ⟨rfl, by decide⟩

end Sys2Proof.Laws.TableRow
end

