-- ==== Sys2Proof/Laws/Run.lean ====
section
/-! SUPPORT. Runs of many edges: one edge more at the front, at the back, and two runs in a row. -/

namespace Sys2Proof.Machine

@[simp] theorem run_zero (s : State) : run 0 s = .next s := rfl

theorem run_succ {n : Nat} {s t : State} (h : step s = .next t) : run (n + 1) s = run n t := by
  simp [run, h]

/-- A run that answers a next state starts with a step that does. -/
theorem step_of_run_succ {n : Nat} {s t : State} (h : run (n + 1) s = .next t) :
    ∃ u, step s = .next u ∧ run n u = .next t := by
  rw [run] at h
  split at h
  · exact ⟨_, ‹_›, h⟩
  · cases h
  · cases h

theorem run_add {m n : Nat} {s t : State} (h : run m s = .next t) : run (m + n) s = run n t := by
  induction m generalizing s with
  | zero =>
    cases h
    simp
  | succ m ih =>
    obtain ⟨u, hu, hrest⟩ := step_of_run_succ h
    rw [Nat.add_right_comm, run_succ hu]
    exact ih hrest

theorem run_snoc {n : Nat} {s t u : State} (h : run n s = .next t) (hs : step t = .next u) :
    run (n + 1) s = .next u := by
  rw [run_add h, run_succ hs, run_zero]

/-- A run that answers a next state ends with a step that does. -/
theorem step_of_run_snoc {n : Nat} {s t : State} (h : run (n + 1) s = .next t) :
    ∃ u, run n s = .next u ∧ step u = .next t := by
  induction n generalizing s with
  | zero =>
    obtain ⟨u, hu, hrest⟩ := step_of_run_succ h
    cases hrest
    exact ⟨s, rfl, hu⟩
  | succ n ih =>
    obtain ⟨u, hu, hrest⟩ := step_of_run_succ h
    obtain ⟨v, hv, hlast⟩ := ih hrest
    exact ⟨v, by rw [run_succ hu, hv], hlast⟩

/-! ### A run that is over (R16) -/

/-- The next edge of a run that is over presents nothing. -/
theorem nextEdge_of_runOver {s : State} (h : runOver s) : (nextEdge s).cmdValid = false := by
  rcases hi : s.inputs with _ | ⟨e, es⟩
  · rw [nextEdge_of_nil hi]
    rfl
  · rw [nextEdge_of_cons hi]
    exact h.1 e (by simp [hi])

/-- All that a step can do once the run is over: a reset, or nothing. -/
theorem step_of_runOver {s : State} (h : runOver s) :
    step s = .next (if (nextEdge s).rst then resetRegisters (popEdge s) else popEdge s) := by
  have hv := nextEdge_of_runOver h
  have hk : (popEdge s).setHeld none = popEdge s := by
    rw [← h.2.1]
    rfl
  cases hr : (nextEdge s).rst <;>
    simp [step, clockEdge, handshakeBroken, heldAfter, h.2.1, h.2.2, hv, hr, hk]

/-- A run that is over is over after every further edge. -/
theorem runOver_of_step {s t : State} (h : runOver s) (hs : step s = .next t) : runOver t := by
  rw [step_of_runOver h] at hs
  have htail : ∀ e ∈ s.inputs.tail, e.cmdValid = false := fun e he => h.1 e (List.mem_of_mem_tail he)
  cases hr : (nextEdge s).rst <;> simp only [hr] at hs <;> cases hs
  · exact ⟨htail, h.2⟩
  · exact ⟨htail, h.2.1, rfl⟩

end Sys2Proof.Machine
end

