-- ==== Sys2Proof/Tests/Slice0.lean ====
section
/-! SUPPORT. Tests. Expected values are the spec's own (`95_test_vectors.md` T-D1 to T-D10, the
examples of the rules) or a word written out from `30_encoding.md` R61; the source of each stands
above it. The last part holds a witness for the hypotheses of every statement. -/

namespace Sys2Proof.Tests

open Sys2Proof.Machine

/-! ### Well-formedness refuses ill-formed terms -/

/-- R122: there is no `FOLDB` of zero bytes, nor of five. -/
theorem test_foldb_operands_refused :
    foldbOperandsOk [] = false ∧ foldbOperandsOk [1#8, 2#8, 3#8, 4#8, 5#8] = false ∧
      foldb [] = none ∧ foldbOperandsOk [1#8] = true := by decide

/-- R60, R72: a number of 35 bits is no command word. -/
theorem test_long_word_refused :
    isCmd34 0x400000000 = false ∧ decodeNat 0x400000000 = .error .notCmd34 ∧
      decodeTableWord 40 0x400000000 = none ∧ isCmd34 0x3FFFFFFFF = true := by decide

/-- R62, R66: the extreme data fields are well formed too. -/
theorem test_every_command_well_formed :
    (Instr.fold 0#32).wellFormed = true ∧ (Instr.fold 0xFFFFFFFF#32).wellFormed = true ∧
      Instr.nop.wellFormed = true ∧ Instr.init.wellFormed = true ∧ Instr.read.wellFormed = true := by
  decide

/-! ### Decoding: words written out bit by bit from the patterns of R61 -/

theorem test_decode_nop :
    decode 0b0000010010001101000101011001111000#34 = .nop ∧ decode 0#34 = .nop := by decide

theorem test_decode_init :
    decode 0b0111011110101011011011111011101111#34 = .init := by decide

/-- T-D6: `2EFBEADDE` is `FOLD 0xEFBEADDE`. -/
theorem test_decode_fold :
    decode 0b1011101111101111101010110111011110#34 =
      .fold 0b11101111101111101010110111011110#32 := by decide

theorem test_decode_read :
    decode 0b1111111111111111111111111111111111#34 = .read ∧
      decode 0b1100000000000000000000000000000000#34 = .read := by decide

/-- R69: the words an assembler emits. -/
theorem test_encode :
    encode .nop = 0x000000000#34 ∧ encode .init = 0x100000000#34 ∧
      encode (.fold 0xEFBEADDE#32) = 0x2EFBEADDE#34 ∧ encode .read = 0x300000000#34 := by decide

/-! ### Functions -/

/-- T-D1. -/
theorem test_step1 :
    step1 0x00000000#32 true = 0x04C11DB7#32 ∧ step1 0xFFFFFFFF#32 false = 0xFB3EE249#32 ∧
      step1 0xFFFFFFFF#32 true = 0xFFFFFFFE#32 ∧ step1 0x40000000#32 false = 0x80000000#32 ∧
      step1 0x82608EDB#32 false = 0x00000001#32 ∧ step1Inverse 0xFB3EE249#32 false = 0xFFFFFFFF#32 := by
  decide

/-- T-D1, bit select: with only bit 16 set the input bit is 1 exactly at `cnt = 15`. -/
theorem test_input_bit :
    ∀ k : BitVec 5, inputBit 0x00010000#32 k = decide (k = 15#5) := by decide

/-- T-D4. -/
theorem test_fold32 :
    fold32 0xFFFFFFFF#32 0xEFBEADDE#32 = 0xEDE062E3#32 ∧
      fold32 0x12345678#32 0x9ABCDEF0#32 = 0xFA5F1433#32 := by decide

/-- T-D6. -/
theorem test_pack :
    pack 0xDE#8 0xAD#8 0xBE#8 0xEF#8 = 0xEFBEADDE#32 ∧
      foldb [0xAA#8, 0xBB#8] = some (.fold 0x0000BBAA#32) := by decide

/-- T-D7, five bytes. -/
theorem test_compute :
    compute [1#8, 2#8, 3#8, 4#8, 5#8] =
        some [.init, .fold 0x04030201#32, .fold 0x00000005#32, .read] ∧
      checksum [1#8, 2#8, 3#8, 4#8, 5#8] = 0xBA237BE3#32 := by decide +kernel

/-- R12, R40: `MemRead` of bytes the buffer does not have. -/
theorem test_mem_read :
    memRead [1#8, 2#8, 3#8] 1 2 = some [2#8, 3#8] ∧ memRead [1#8, 2#8, 3#8] 2 2 = none := by decide

/-- `FOLDB 0x01,0x02 ; c` (R71, P2) emits `200000201` (T-D6). -/
theorem test_assemble_foldb :
    assembleLine ['F', 'O', 'L', 'D', 'B', ' ', '0', 'x', '0', '1', ',', '0', 'x', '0', '2', ' ', ';',
      'c'] = .ok [0x200000201#34] := by decide

/-- `COMPUTE []` (R124) and `COMPUTE [0x01]` (R125). -/
theorem test_assemble_compute :
    assembleLine ['C', 'O', 'M', 'P', 'U', 'T', 'E', ' ', '[', ']'] =
        .ok [0x100000000#34, 0x300000000#34] ∧
      assembleLine ['C', 'O', 'M', 'P', 'U', 'T', 'E', ' ', '[', '0', 'x', '0', '1', ']'] =
        .ok [0x100000000#34, 0x200000001#34, 0x300000000#34] := by decide

/-- Lines that are none of the language, and a `PACK`, which emits nothing (R71). -/
theorem test_assemble_refusals :
    assembleLine ['n', 'o', 'p'] = .error .unknownMnemonic ∧
      assembleLine ['F', 'O', 'L', 'D', ' ', '0', 'x', '1'] = .error .badOperands ∧
      assembleLine ['P', 'A', 'C', 'K', ' ', '0', 'x', '1', '2', ',', '0', 'x', '3', '4', ',', '0', 'x',
        '5', '6', ',', '0', 'x', '7', '8'] = .ok [] := by decide

/-! ### One step -/

/-- A state with the fields a test is about; nothing held, nothing answered. -/
def st (crc wreg : Word) (cnt : BitVec 5) (busy : Bool) (inputs : List Edge) : State where
  crc := crc
  wreg := wreg
  cnt := cnt
  busy := busy
  inputs := inputs
  held := none
  responses := []

/-- The next state, if there is one. -/
def next? : Host.Outcome State Fault Refusal → Option State
  | .next t => some t
  | .fault _ => none
  | .refused _ => none

/-- The edge of a reset, with `cmd` presented if `v`. -/
def resetEdge (v : Bool) (c : Cmd34) : Edge where
  rst := true
  cmdValid := v
  cmd := c

/-- R81's example. -/
theorem test_nop :
    next? (step (st 0xC704DD7B#32 5#32 0#5 false [presentEdge 0x012345678#34])) =
      some (st 0xC704DD7B#32 5#32 0#5 false []) := by decide

/-- T-D5, with the data field ignored. -/
theorem test_init :
    next? (step (st 0xEDE062E3#32 5#32 0#5 false [presentEdge 0x1DEADBEEF#34])) =
      some (st 0xFFFFFFFF#32 5#32 0#5 false []) := by decide

/-- T-D8, edge `e_0`: the accept does not change `crc`. -/
theorem test_fold_accept :
    next? (step (st 0xFFFFFFFF#32 5#32 0#5 false [presentEdge 0x2EFBEADDE#34])) =
      some (st 0xFFFFFFFF#32 0xEFBEADDE#32 0#5 true []) := by decide

/-- T-D3, step 3, with a `READ` held (T-D8): `FFFFFFF8` steps to `FB3EE247`. -/
theorem test_fold_step_holds_read :
    next? (step (st 0xFFFFFFF8#32 0xEFBEADDE#32 3#5 true [presentEdge 0x300000000#34])) =
      some { st 0xFB3EE247#32 0xEFBEADDE#32 4#5 true [] with held := some 0x300000000#34 } := by
  decide

/-- T-D8, edge `e_32`: the last step. -/
theorem test_fold_last_step :
    next? (step (st 0xE1E2E066#32 0#32 31#5 true [])) =
      some (st 0xC704DD7B#32 0#32 0#5 false []) := by decide

/-- T-D5 and T-D8, edge `e_33`. -/
theorem test_read :
    next? (step (st 0xC704DD7B#32 0#32 0#5 false [presentEdge 0x3FFFFFFFF#34])) =
      some { st 0xC704DD7B#32 0#32 0#5 false [] with responses := [0xC704DD7B#32] } := by decide

/-- T-D10: a reset ten steps into a fold, with a `FOLD` presented, which is not accepted. -/
theorem test_reset_in_fold :
    next? (step (st 0xCFB891C0#32 0xEFBEADDE#32 10#5 true [resetEdge true 0x200000000#34])) =
      some { st 0xFFFFFFFF#32 0xEFBEADDE#32 0#5 false [] with held := some 0x200000000#34 } := by
  decide

/-- R169, U4: a held command that is withdrawn, and one that is changed. -/
theorem test_handshake_broken :
    next? (step { st 0#32 0#32 0#5 false [] with held := some 0x300000000#34 }) = none ∧
      next? (step { st 0#32 0#32 0#5 false [presentEdge 0x100000000#34] with
        held := some 0x300000000#34 }) = none := by decide

/-- A placed word runs as the first command after reset, and after a fold in progress is finished
(log 12). -/
theorem test_with_fetch_word :
    next? (step (State.reset.withFetchWord 40 0x2EFBEADDE)) =
        some (st 0xFFFFFFFF#32 0xEFBEADDE#32 0#5 true []) ∧
      next? (step ((st 0xFFFFFFFF#32 0xEFBEADDE#32 0#5 true []).withFetchWord 40 0x300000000)) =
        some { st 0xEDE062E3#32 0xEFBEADDE#32 0#5 false [] with responses := [0xEDE062E3#32] } := by
  decide

/-! ### Witnesses: states and operands that meet the hypotheses of each statement -/

/-- A host that presents nothing. -/
def noEdge (d : Cmd34) : Edge where
  rst := false
  cmdValid := false
  cmd := d

/-- Idle, a command of each opcode presented next with an extreme data field. -/
def presenting (c : Cmd34) : State := st 0xC704DD7B#32 0#32 0#5 false [presentEdge c]

/-- A fold in progress with `cnt` steps done, nothing held; the host drives `es`. -/
def folding (cnt : BitVec 5) (es : List Edge) : State :=
  st 0x12345678#32 0xEFBEADDE#32 cnt true es

theorem witness_DecoderFollowsOpcodeMap :
    decode 0x2FFFFFFFF#34 = .fold 0xFFFFFFFF#32 ∧ decode 0x200000000#34 = .fold 0#32 := by decide

theorem witness_IgnoredDataFieldSelectsNothing :
    (opField 0x1FFFFFFFF#34 = opField 0x100000000#34 ∧ opField 0x1FFFFFFFF#34 ≠ 2#2) ∧
      (opField 0#34 = opField 0x0FFFFFFFF#34 ∧ opField 0#34 ≠ 2#2) ∧
      (opField 0x3FFFFFFFF#34 = opField 0x300000000#34 ∧ opField 0x3FFFFFFFF#34 ≠ 2#2) := by decide

theorem witness_DisplayIsEightUpperCaseHexDigits : '0' ∈ hex8 0#32 ∧ 'F' ∈ hex8 0xFFFFFFFF#32 := by
  decide

theorem witness_ResetStateIsSeededIdleReady :
    (noEdge 0#34).rst = false ∧ (resetEdge true 0x300000000#34).rst = true := by decide

theorem witness_ResetEdgeSeedsAndIdles :
    (let s := folding 31#5 [resetEdge true 0x300000000#34];
      (nextEdge s).rst = true ∧ keepsHandshake s) ∧
      (let s := { folding 1#5 [resetEdge true 0x300000000#34] with held := some 0x300000000#34 };
        (nextEdge s).rst = true ∧ keepsHandshake s) ∧
      (let s := st 5#32 0#32 0#5 false [resetEdge false 0#34];
        (nextEdge s).rst = true ∧ keepsHandshake s) := by decide

theorem witness_RepeatedResetChangesNothingFurther :
    (folding 3#5 [resetEdge false 7#34]).held = none ∧
      (folding 3#5 [resetEdge false 7#34]).inputs =
        List.replicate (0 + 1) ⟨true, false, 7#34⟩ ++ [] ∧
      (folding 3#5 [resetEdge false 7#34, resetEdge false 7#34]).inputs =
        List.replicate (1 + 1) ⟨true, false, 7#34⟩ ++ [] := by decide

theorem witness_ResetAbandonsFoldInProgress :
    (let c := 0x300000000#34;
      let s := { folding 10#5 [resetEdge true c, presentEdge c] with held := some c };
      s.busy = true ∧ keepsHandshake s ∧ s.inputs = ⟨true, true, c⟩ :: presentEdge c :: []) ∧
      (let s := folding 10#5 [resetEdge false 7#34, noEdge 5#34, resetEdge false 0#34];
        s.busy = true ∧ s.held = none ∧
          s.inputs = ⟨true, false, 7#34⟩ :: [noEdge 5#34, resetEdge false 0#34] ∧
          ∀ e ∈ [noEdge 5#34, resetEdge false 0#34], e.cmdValid = false) ∧
      (∃ t, (folding 31#5 []).busy = true ∧ step (folding 31#5 []) = .next t ∧ t.busy = false) ∧
      (∃ t, (folding 5#5 [resetEdge false 7#34]).busy = true ∧
        step (folding 5#5 [resetEdge false 7#34]) = .next t ∧ t.busy = false) :=
  ⟨by decide, by decide, ⟨_, by decide, rfl, by decide⟩, ⟨_, by decide, rfl, by decide⟩⟩

theorem witness_NopChangesNothing :
    (let s := { presenting 0x0FFFFFFFF#34 with held := some 0x0FFFFFFFF#34 };
      s.busy = false ∧ keepsHandshake s ∧ presents s 0x0FFFFFFFF#34 ∧
        opField 0x0FFFFFFFF#34 = 0#2) ∧
      (let s := presenting 0#34;
        s.busy = false ∧ s.held = none ∧ opField 0#34 = 0#2) := by decide

theorem witness_InitSeedsCrc :
    (let s := presenting 0x1FFFFFFFF#34;
      s.busy = false ∧ keepsHandshake s ∧ presents s 0x1FFFFFFFF#34 ∧
        opField 0x1FFFFFFFF#34 = 1#2) ∧
      (∃ t, exec .init (presenting 0#34) = .next t) := ⟨by decide, _, rfl⟩

theorem witness_FoldAcceptStartsTheFold :
    let s := presenting 0x2FFFFFFFF#34;
    s.busy = false ∧ keepsHandshake s ∧ presents s 0x2FFFFFFFF#34 ∧
      opField 0x2FFFFFFFF#34 = 2#2 := by decide

theorem witness_ReadDeliversCrc :
    (let s := presenting 0x3FFFFFFFF#34;
      s.busy = false ∧ keepsHandshake s ∧ presents s 0x3FFFFFFFF#34 ∧
        opField 0x3FFFFFFFF#34 = 3#2) ∧
      (∃ t u, exec .read (presenting 0#34) = .next t ∧ exec .read t = .next u) :=
  ⟨by decide, _, _, rfl, rfl⟩

/-- Each clause of the frame has a command and a state in which its register changes. -/
theorem witness_CommandsCompleteAndTouchOnlyTheirOwn :
    (∃ t, exec .init (presenting 0#34) = .next t ∧ t.crc ≠ (presenting 0#34).crc) ∧
      (∃ t, exec (.fold 1#32) (presenting 0#34) = .next t ∧ t.wreg ≠ (presenting 0#34).wreg ∧
        t.busy ≠ (presenting 0#34).busy) ∧
      (∃ t, exec (.fold 0#32) (folding 31#5 []) = .next t ∧ t.cnt ≠ (folding 31#5 []).cnt) ∧
      (∃ t, exec .read (presenting 0#34) = .next t ∧
        t.responses ≠ (presenting 0#34).responses) :=
  ⟨⟨_, rfl, by decide⟩, ⟨_, rfl, by decide⟩, ⟨_, rfl, by decide⟩, ⟨_, rfl, by decide⟩⟩

/-- The lowest and the highest bit position. -/
theorem witness_NextCrcBitByBit : 0 < 32 ∧ 31 < 32 := by decide

/-- The first, the last but one and the last step. -/
theorem witness_StepMicroOperation :
    (let s := folding 0#5 [];
      s.busy = true ∧ (nextEdge s).rst = false ∧ keepsHandshake s ∧ s.cnt ≠ 31#5) ∧
      (let s := folding 30#5 [presentEdge 5#34];
        s.busy = true ∧ (nextEdge s).rst = false ∧ keepsHandshake s ∧ s.cnt ≠ 31#5) ∧
      (let s := { folding 31#5 [presentEdge 5#34] with held := some 5#34 };
        s.busy = true ∧ (nextEdge s).rst = false ∧ keepsHandshake s ∧ s.cnt = 31#5) := by decide

/-- One state for each case of the clock-edge rule, and for each opcode. -/
theorem witness_ClockEdgeRule :
    (let s := folding 31#5 [resetEdge true 0#34];
      keepsHandshake s ∧ (nextEdge s).rst = true) ∧
      (let s := folding 31#5 [presentEdge 0x200000000#34];
        keepsHandshake s ∧ (nextEdge s).rst = false ∧ s.busy = true) ∧
      (∀ op : BitVec 2, let s := presenting (op ++ 0xFFFFFFFF#32);
        keepsHandshake s ∧ (nextEdge s).rst = false ∧ s.busy = false ∧
          (nextEdge s).cmdValid = true ∧ opField (nextEdge s).cmd = op) ∧
      (let s := st 5#32 0#32 0#5 false [noEdge 0x3FFFFFFFF#34];
        keepsHandshake s ∧ (nextEdge s).rst = false ∧ s.busy = false ∧
          (nextEdge s).cmdValid = false) := by decide

theorem witness_AcceptedCommandRunsAtItsEdge :
    let s := { presenting 0x2FFFFFFFF#34 with held := some 0x2FFFFFFFF#34 };
    keepsHandshake s ∧ acceptedNext s = some (.fold 0xFFFFFFFF#32) := by decide

theorem witness_HeldCommandHasNoEffect :
    ((folding 31#5 []).busy = true ∧ (folding 31#5 []).held = none) ∧
      (let s := { st 5#32 0#32 0#5 false [] with held := some 7#34 };
        (s.busy = true ∨ true = true) ∧ s.held = some 7#34) := by decide

theorem witness_OnlyABrokenHandshakeStops :
    keepsHandshake { presenting 7#34 with held := some 7#34 } ∧
      ¬ keepsHandshake { presenting 7#34 with held := some 6#34 } ∧
      ¬ keepsHandshake { st 0#32 0#32 0#5 false [] with held := some 6#34 } := by decide

theorem witness_ResponsesAreTheAcceptedReads :
    (let s := presenting 0x300000000#34;
      rspValid s (nextEdge s) = true ∧ ∃ t, step s = .next t) ∧
      (∃ t, step (folding 31#5 []) = .next t) :=
  ⟨⟨by decide, _, rfl⟩, _, rfl⟩

/-- The accepting edge (`j` 0), one step (`j` 1) and, in a run that exists, all of them (`j` 32). -/
theorem witness_EveryFoldFollowsItsTrace :
    let s := { st 5#32 0#32 0#5 false [presentEdge 0x2FFFFFFFF#34, presentEdge 7#34] with
      held := some 0x2FFFFFFFF#34 };
    s.busy = false ∧ presents s 0x2FFFFFFFF#34 ∧ decode 0x2FFFFFFFF#34 = .fold 0xFFFFFFFF#32 ∧
      (∃ t, run (0 + 1) s = .next t) ∧
      (∀ k, k < 1 → (edgeAhead s (k + 1)).rst = false) ∧ (∃ t, run (1 + 1) s = .next t) :=
  ⟨rfl, rfl, by decide, ⟨_, rfl⟩, by decide, _, rfl⟩

theorem witness_EveryFoldFollowsItsTrace_last :
    let s := presenting 0x2FFFFFFFF#34;
    (∀ k, k < 32 → (edgeAhead s (k + 1)).rst = false) ∧ ∃ t, run (32 + 1) s = .next t :=
  ⟨by decide, _, rfl⟩

/-- With the host presenting nothing, and with a `READ` held; `j` is 0, 1 and 31 at its bounds. -/
theorem witness_FoldRunsThirtyTwoSteps :
    (let es := presentEdge (encode (.fold 0#32)) :: (List.replicate 32 (noEdge 0#34) ++ []);
      let s := st 5#32 0#32 0#5 false es;
      s.busy = false ∧ s.held = none ∧ (noEdge 0#34).rst = false ∧ s.inputs = es) ∧
      (let es := presentEdge (encode (.fold 0xFFFFFFFF#32)) ::
          (List.replicate 32 (presentEdge 0x300000000#34) ++ [presentEdge 0x300000000#34]);
        let s := st 5#32 0#32 0#5 false es;
        s.busy = false ∧ s.held = none ∧ (presentEdge 0x300000000#34).rst = false ∧
          s.inputs = es) ∧
      0 ≤ 31 ∧ 1 ≤ 31 ∧ 31 ≤ 31 := by decide

theorem witness_EdgesUntilReadyAgain :
    (let es := presentEdge (encode .read) :: (List.replicate (edgesAfter .read) (noEdge 0#34) ++ []);
      let s := st 5#32 0#32 0#5 false es;
      s.busy = false ∧ s.held = none ∧ (noEdge 0#34).rst = false ∧ s.inputs = es) ∧
      (let es := presentEdge (encode (.fold 1#32)) ::
          (List.replicate (edgesAfter (.fold 1#32)) (noEdge 0#34) ++ []);
        let s := st 5#32 0#32 0#5 false es;
        s.busy = false ∧ s.held = none ∧ (noEdge 0#34).rst = false ∧ s.inputs = es) ∧
      0 < edgesAfter (.fold 1#32) ∧ 31 < edgesAfter (.fold 1#32) := by decide

/-- All 32 steps left, and one left. -/
theorem witness_EveryFoldEndsAndHeldCommandIsAccepted :
    (let es := List.replicate 32 (presentEdge 7#34) ++ presentEdge 7#34 :: [];
      let s := folding 0#5 es;
      s.busy = true ∧ s.held = none ∧
        s.inputs = List.replicate (32 - s.cnt.toNat) (presentEdge 7#34) ++ presentEdge 7#34 :: []) ∧
      (let s := { folding 31#5 [presentEdge 7#34, presentEdge 7#34] with held := some 7#34 };
        s.busy = true ∧ s.held = some 7#34 ∧
          s.inputs =
            List.replicate (32 - s.cnt.toNat) (presentEdge 7#34) ++ presentEdge 7#34 :: []) := by
  decide

/-- A step for each antecedent: `crc`, `wreg`, `cnt` change, `busy` is set, `busy` is cleared. -/
theorem witness_RegistersAreWrittenOnlyWhereNamed :
    (∃ t, step (presenting 0x100000000#34) = .next t ∧ t.crc ≠ (presenting 0x100000000#34).crc) ∧
      (∃ t, step (presenting 0x200000001#34) = .next t ∧
        t.wreg ≠ (presenting 0x200000001#34).wreg ∧
        (presenting 0x200000001#34).busy = false ∧ t.busy = true) ∧
      (∃ t, step (folding 31#5 []) = .next t ∧ t.cnt ≠ (folding 31#5 []).cnt ∧
        (folding 31#5 []).busy = true ∧ t.busy = false) :=
  ⟨⟨_, rfl, by decide⟩, ⟨_, rfl, by decide⟩, ⟨_, rfl, by decide⟩⟩

/-- Idle, busy with no step done, and busy with steps done and a command held. -/
theorem witness_EveryStepKeepsTheInvariant :
    (Invariant (presenting 0x200000001#34) ∧ ∃ t, step (presenting 0x200000001#34) = .next t) ∧
      (Invariant (folding 0#5 [presentEdge 7#34]) ∧
        ∃ t, step (folding 0#5 [presentEdge 7#34]) = .next t) ∧
      (let s := { folding 31#5 [presentEdge 7#34] with held := some 7#34 };
        Invariant s ∧ ∃ t, step s = .next t) :=
  ⟨⟨by decide, _, rfl⟩, ⟨by decide, _, rfl⟩, ⟨by decide, _, rfl⟩⟩

/-- One edge (`cnt` 0) and two (`cnt` 1) after an idle state. -/
theorem witness_BusyCountsTheStepsOfItsFold :
    let s := presenting 0x200000001#34;
    s.busy = false ∧ (∃ t, run 1 s = .next t ∧ t.busy = true ∧ t.cnt = 0#5) ∧
      (∃ t, run 2 s = .next t ∧ t.busy = true ∧ t.cnt = 1#5) :=
  ⟨rfl, ⟨_, rfl, by decide⟩, ⟨_, rfl, by decide⟩⟩

/-- A reset, an accept, a `STEP` and an edge with nothing. -/
theorem witness_StepRefinesWordLevel :
    (∃ t, step (folding 5#5 [resetEdge false 0#34]) = .next t) ∧
      (∃ t, step (presenting 0x300000000#34) = .next t) ∧
      (∃ t, step (folding 31#5 []) = .next t) ∧ (∃ t, step State.reset = .next t) :=
  ⟨⟨_, rfl⟩, ⟨_, rfl⟩, ⟨_, rfl⟩, ⟨_, rfl⟩⟩

theorem witness_RunRefinesWordLevel :
    let s := st 5#32 0#32 0#5 false [presentEdge 0x100000000#34, presentEdge 0x300000000#34];
    s.busy = false ∧ ∃ t, run 2 s = .next t ∧ t.busy = false := ⟨rfl, _, rfl, by decide⟩

theorem witness_MissingInitContinuesTheOldChecksum :
    ([] : List Byte).length % 4 = 0 ∧ [1#8, 2#8, 3#8, 4#8].length % 4 = 0 := by decide

theorem witness_IdleWregIsNeverRead :
    let s := presenting 0x200000001#34;
    s.busy = false ∧ (∃ t, run 0 s = .next t) ∧ ∃ t, run 1 s = .next t ∧ t.busy = true :=
  ⟨rfl, ⟨_, rfl⟩, _, rfl, by decide⟩

/-- The last step of a fold, and a fold with all steps left. -/
theorem witness_IntermediateCrcIsUnobservable :
    (let s := folding 31#5 [presentEdge 0x300000000#34];
      s.busy = true ∧ 1 ≤ 32 - s.cnt.toNat ∧ ∃ t, run 1 s = .next t) ∧
      (let s := folding 0#5 [];
        s.busy = true ∧ 1 ≤ 32 - s.cnt.toNat ∧ ∃ t, run 1 s = .next t) :=
  ⟨⟨rfl, by decide, _, rfl⟩, ⟨rfl, by decide, _, rfl⟩⟩

/-- No edge listed; quiet edges to come; a reset among them. -/
theorem witness_FinishedRunStaysAsItIs :
    runOver State.reset ∧ runOver (st 5#32 0#32 0#5 false [noEdge 7#34, noEdge 0#34]) ∧
      runOver (st 5#32 0#32 0#5 false [noEdge 7#34, resetEdge false 3#34]) ∧
      (∃ t, run 1 (st 5#32 0#32 0#5 false [noEdge 7#34]) = .next t) :=
  ⟨by decide, by decide, by decide, _, rfl⟩

/-- R16: not over while a command is still to be presented, nor while a fold is in progress. -/
theorem test_runOver_not :
    ¬ runOver (st 5#32 0#32 0#5 false [noEdge 7#34, presentEdge 0#34]) ∧ ¬ runOver (folding 3#5 []) :=
  by decide

theorem witness_ShiftRegisterDatapathAgrees : 0 ≤ 32 ∧ 32 ≤ 32 := by decide

/-- The first and the last word of a five-byte buffer. -/
theorem witness_WordStreamOfTheBuffer :
    0 < ([1#8, 2#8, 3#8, 4#8, 5#8].length + 3) / 4 ∧
      1 < ([1#8, 2#8, 3#8, 4#8, 5#8].length + 3) / 4 := by decide

theorem witness_FoldbPadsOnTheRight :
    ([] : List Byte).length = 0 ∧ 4 < [1#8, 2#8, 3#8, 4#8, 5#8].length := by decide

theorem witness_ComputeExpandsToItsCommands :
    compute [] = some [.init, .read] ∧
      compute [1#8] = some [.init, .fold 0x00000001#32, .read] := by decide

/-- The empty message and a message of one byte, with edges left over. -/
theorem witness_ComputeOnTheBlockDeliversTheChecksum :
    (let s := st 5#32 0#32 0#5 false (eagerEdges 0 [.init, .read] ++ [noEdge 0#34]);
      Invariant s ∧ s.busy = false ∧ s.held = none ∧ compute [] = some [.init, .read] ∧
        s.inputs = eagerEdges 0 [.init, .read] ++ [noEdge 0#34]) ∧
      (let is := [.init, .fold 0x00000001#32, .read];
        let s := st 5#32 0#32 0#5 false (eagerEdges 0 is ++ []);
        Invariant s ∧ s.busy = false ∧ s.held = none ∧ compute [1#8] = some is ∧
          s.inputs = eagerEdges 0 is ++ []) := by decide

/-- Lengths 1 and 3 modulo 4. -/
theorem witness_PaddingIsExplicitZeros :
    [1#8].length % 4 ≠ 0 ∧ [1#8, 2#8, 3#8].length % 4 ≠ 0 := by decide

theorem witness_LengthSensitivityExact :
    [1#8].length % 4 ≠ 0 ∧ [1#8, 2#8, 3#8].length % 4 ≠ 0 ∧ ([] : List Byte).length % 4 = 0 := by
  decide

/-- 34 bits, and 34 bits in whole bytes. -/
theorem witness_FetchedWordIsTheNextCommandRun :
    decodeTableWord 34 0x3FFFFFFFF = some .read ∧
      decodeTableWord 40 0x2FFFFFFFF = some (.fold 0xFFFFFFFF#32) ∧
      (folding 5#5 []).busy = true ∧ State.reset.busy = false := by decide

end Sys2Proof.Tests
end

section
/-! ### Runs and their events: what every step keeps, and one step at the front of the events -/

namespace Sys2Proof.Machine

/-- What every step keeps, every run keeps. -/
theorem run_preserves {P : State → Prop} (hstep : ∀ {s t}, P s → step s = .next t → P t)
    {n : Nat} {s t : State} (hs : P s) (hrun : run n s = .next t) : P t := by
  induction n generalizing s with
  | zero =>
    cases hrun
    exact hs
  | succ n ih =>
    obtain ⟨u, hu, hrest⟩ := step_of_run_succ hrun
    exact ih (hstep hs hu) hrest

@[simp] theorem eventsOf_zero (s : State) : eventsOf 0 s = [] := rfl

theorem eventsOf_succ {n : Nat} {s t : State} (h : step s = .next t) :
    eventsOf (n + 1) s = eventsNext s ++ eventsOf n t := by
  rw [eventsOf, h]

/-! ### A run that is over (R16, R153): where further edges take it -/

/-- One of the next `n` edges resets. -/
def resetWithin (n : Nat) (s : State) : Bool := (s.inputs.take n).any (fun e => e.rst)

/-- Where `n` further edges take a run that is over: they are consumed, and a reset among them seeds
`crc` and clears `cnt` (R160). -/
def afterOver (n : Nat) (s : State) : State :=
  { s with
    crc := if resetWithin n s then Config.seed else s.crc
    cnt := if resetWithin n s then 0#5 else s.cnt
    inputs := s.inputs.drop n }

@[simp] theorem resetWithin_resetRegisters (n : Nat) (s : State) :
    resetWithin n (resetRegisters s) = resetWithin n s := rfl

/-- A reset within `n + 1` edges is one at the next edge or one at an edge after it. -/
theorem resetWithin_succ (n : Nat) (s : State) :
    resetWithin (n + 1) s = ((nextEdge s).rst || resetWithin n (popEdge s)) := by
  rcases hi : s.inputs with _ | ⟨e, es⟩
  · simp [resetWithin, nextEdge_of_nil hi, hi, quietEdge]
  · simp [resetWithin, nextEdge_of_cons hi, hi]

@[simp] theorem afterOver_zero (s : State) : afterOver 0 s = s := rfl

/-- The next edge first, then the `n` after it. -/
theorem afterOver_succ (n : Nat) {s : State} (hb : s.busy = false) :
    afterOver (n + 1) s =
      afterOver n (if (nextEdge s).rst then resetRegisters (popEdge s) else popEdge s) := by
  cases hr : (nextEdge s).rst <;> simp [afterOver, resetWithin_succ, hr, hb]

theorem run_of_runOver (n : Nat) {s : State} (h : runOver s) : run n s = .next (afterOver n s) := by
  induction n generalizing s with
  | zero => rfl
  | succ n ih =>
    have hs := step_of_runOver h
    have ⟨_, _, hidle⟩ := h
    rw [run_succ hs, ih (runOver_of_step h hs), afterOver_succ n hidle]

/-- The next edge of a run that is over accepts nothing: it is a reset or no event. -/
theorem accept_not_mem_eventsNext_of_runOver {s : State} (h : runOver s) (i : Instr) :
    Event.accept i ∉ eventsNext s := by
  have hnone : acceptedNext s = none := by simp [acceptedNext, acceptedAt, nextEdge_of_runOver h]
  cases hr : (nextEdge s).rst <;> simp [eventsNext, hr, hnone]

theorem accept_not_mem_eventsOf_of_runOver (n : Nat) {s : State} (h : runOver s) (i : Instr) :
    Event.accept i ∉ eventsOf n s := by
  induction n generalizing s with
  | zero => simp
  | succ n ih =>
    have hs := step_of_runOver h
    rw [eventsOf_succ hs, List.mem_append, not_or]
    exact ⟨accept_not_mem_eventsNext_of_runOver h i, ih (runOver_of_step h hs)⟩

/-- Settles O41: the state after `n` edges by induction on `n` from the one step of a run that is
over, and the two other clauses from the fact that such a step keeps the run over. -/
theorem finishedRunStaysAsItIs : Obligations.FinishedRunStaysAsItIs := by
  intro s n hover
  exact ⟨run_of_runOver n hover, fun t => run_preserves runOver_of_step hover,
    accept_not_mem_eventsOf_of_runOver n hover⟩

end Sys2Proof.Machine
end

section
/-! ### Words as polynomials (R111) and the generator (R3) -/

namespace Sys2Proof

open Polynomial

/-- The positions of the bits that are 1. -/
def setBits (v : Word) : Finset ℕ := (Finset.range 32).filter (fun j => v.getLsbD j = true)

/-- The polynomial of a word is the sum of the powers at its set bits. -/
theorem wordPoly_eq_sum_setBits (v : Word) : wordPoly v = ∑ j ∈ setBits v, X ^ j := by
  rw [wordPoly, setBits, Finset.sum_filter, Finset.sum_range]

/-- A word of 32 bits has no power above `x^31`. -/
theorem degree_wordPoly_lt (v : Word) : (wordPoly v).degree < 32 := by
  rw [wordPoly_eq_sum_setBits]
  refine mem_degreeLT.mp (Submodule.sum_mem (degreeLT (ZMod 2) 32) fun j hj => ?_)
  have hlt : j < 32 := Finset.mem_range.mp (Finset.mem_filter.mp hj).1
  simpa [mem_degreeLT] using hlt

theorem setBits_poly : setBits Config.poly = {26, 23, 22, 16, 12, 11, 10, 8, 7, 5, 4, 2, 1, 0} := by
  decide

/-- The degree-32 term leads, since `POLY` is a word. -/
theorem generator_monic : generator.Monic := monic_X_pow_add (degree_wordPoly_lt Config.poly)

/-- Settles O48: the set bits of `POLY` are the listed powers below `x^32`, and a word's polynomial
has degree below 32. -/
theorem generatorIsTheListedPolynomial : Obligations.GeneratorIsTheListedPolynomial := by
  refine ⟨?_, generator_monic⟩
  rw [generator, wordPoly_eq_sum_setBits, setBits_poly]
  simp [add_assoc]

end Sys2Proof
end

section
/-! ### The step by its event: what a reset, a `STEP`, an accept and a quiet edge write (R105) -/

namespace Sys2Proof.Machine

/-- The state an edge's event acts on: the edge is consumed, and a command the block is not ready for
is held (R64). -/
def sampled (s : State) : State := (popEdge s).setHeld (heldAfter s (nextEdge s))

@[simp] theorem sampled_crc (s : State) : (sampled s).crc = s.crc := rfl
@[simp] theorem sampled_wreg (s : State) : (sampled s).wreg = s.wreg := rfl
@[simp] theorem sampled_cnt (s : State) : (sampled s).cnt = s.cnt := rfl
@[simp] theorem sampled_busy (s : State) : (sampled s).busy = s.busy := rfl
@[simp] theorem sampled_inputs (s : State) : (sampled s).inputs = s.inputs.tail := rfl
@[simp] theorem sampled_responses (s : State) : (sampled s).responses = s.responses := rfl
@[simp] theorem sampled_setWreg (s : State) (x : Word) :
    sampled (s.setWreg x) = (sampled s).setWreg x := rfl

theorem acceptedNext_eq_some {s : State} {i : Instr} :
    acceptedNext s = some i ↔
      (nextEdge s).cmdValid = true ∧ s.busy = false ∧ (nextEdge s).rst = false ∧
        decode (nextEdge s).cmd = i := by
  rw [acceptedNext, acceptedAt_eq_some, cmdReady_eq_true, and_assoc]

/-- An edge that accepts a command holds none (R63, R64). -/
theorem sampled_held_of_accepted {s : State} {i : Instr} (h : acceptedNext s = some i) :
    (sampled s).held = none := by
  obtain ⟨_, hb, hr, _⟩ := acceptedNext_eq_some.mp h
  exact heldAfter_of_ready (cmdReady_eq_true.mpr ⟨hb, hr⟩)

theorem step_of_reset {s : State} (hk : keepsHandshake s) (hr : (nextEdge s).rst = true) :
    step s = .next (resetRegisters (sampled s)) := by
  simp only [keepsHandshake] at hk
  simp [step, clockEdge, hk, hr, sampled, heldAfter, cmdReady]

theorem step_of_accepted {s : State} {i : Instr} (hk : keepsHandshake s)
    (h : acceptedNext s = some i) : step s = exec i (sampled s) := by
  obtain ⟨hv, hb, hr, rfl⟩ := acceptedNext_eq_some.mp h
  simp only [keepsHandshake] at hk
  simp [step, clockEdge, hk, hv, hb, hr, sampled, heldAfter, cmdReady]

theorem step_of_quiet {s : State} (hk : keepsHandshake s) (hr : (nextEdge s).rst = false)
    (hb : s.busy = false) (hv : (nextEdge s).cmdValid = false) : step s = .next (sampled s) := by
  simp only [keepsHandshake] at hk
  simp [step, clockEdge, hk, hv, hb, hr, sampled, heldAfter]

/-- Everything a step that answers a next state can do, by the event of its edge (R105). -/
theorem step_event_cases {s t : State} (h : step s = .next t) :
    keepsHandshake s ∧
      (((nextEdge s).rst = true ∧ t = resetRegisters (sampled s)) ∨
        ((nextEdge s).rst = false ∧ s.busy = true ∧ t = microStep (sampled s)) ∨
        (∃ i, acceptedNext s = some i ∧ s.busy = false ∧ exec i (sampled s) = .next t) ∨
        ((nextEdge s).rst = false ∧ s.busy = false ∧ (nextEdge s).cmdValid = false ∧
          t = sampled s)) := by
  obtain ⟨hk, hreset | hstep | ⟨hr, hb, hv, hexec⟩ | hquiet⟩ := step_cases h
  · exact ⟨hk, .inl hreset⟩
  · exact ⟨hk, .inr (.inl hstep)⟩
  · exact ⟨hk, .inr (.inr (.inl
      ⟨_, acceptedNext_eq_some.mpr ⟨hv, hb, hr, rfl⟩, hb, hexec⟩))⟩
  · exact ⟨hk, .inr (.inr (.inr hquiet))⟩

/-- The step with `cnt == 31`, and no other, clears `busy` (R106). -/
theorem busyAfterStep_eq_true {k : BitVec 5} : busyAfterStep k = true ↔ k ≠ 31#5 :=
  decide_eq_true_iff

theorem busyAfterStep_eq_false {k : BitVec 5} : busyAfterStep k = false ↔ k = 31#5 := by
  rw [← Bool.not_eq_true, busyAfterStep_eq_true, ne_eq, not_not]

/-- Only the accept of a `FOLD` starts a fold (R26, R107). -/
theorem fold_accepted_of_starts {s t : State} (h : step s = .next t) (hs : s.busy = false)
    (ht : t.busy = true) :
    acceptedNext s = some (.fold t.wreg) ∧ t.cnt = 0#5 ∧ t.crc = s.crc := by
  obtain ⟨_, ⟨_, rfl⟩ | ⟨_, hb, _⟩ | ⟨i, hacc, _, hexec⟩ | ⟨_, _, _, rfl⟩⟩ := step_event_cases h
  · simp at ht
  · simp [hs] at hb
  · obtain ⟨_, rfl⟩ | ⟨_, rfl⟩ | ⟨w, rfl, rfl⟩ | ⟨_, rfl⟩ := exec_cases hexec
    · simp [hs] at ht
    · simp [hs] at ht
    · exact ⟨hacc, rfl, rfl⟩
    · simp [hs] at ht
  · simp [hs] at ht

/-- An edge that leaves a fold in progress performs its next `STEP` (R106). -/
theorem stepped_of_stays_busy {s t : State} (h : step s = .next t) (hs : s.busy = true)
    (ht : t.busy = true) :
    t.crc = step1 s.crc (inputBit s.wreg s.cnt) ∧ t.cnt.toNat = s.cnt.toNat + 1 ∧
      t.wreg = s.wreg := by
  obtain ⟨_, ⟨_, rfl⟩ | ⟨_, _, rfl⟩ | ⟨_, _, hb, _⟩ | ⟨_, hb, _⟩⟩ := step_event_cases h
  · simp at ht
  · have hne : s.cnt ≠ 31#5 := busyAfterStep_eq_true.mp ht
    exact ⟨rfl, toNat_cntAfterStep hne, rfl⟩
  · simp [hs] at hb
  · simp [hs] at hb

end Sys2Proof.Machine
end

section
/-! ### The registers and their invariant (`10_state.md` R21 to R35) -/

namespace Sys2Proof.Machine

/-- A `STEP` leaves `cnt` 0 exactly when it ends the fold, so it keeps the invariant whatever is
held (R27, R106). -/
theorem invariant_microStep (s : State) : Invariant (microStep s) := by
  by_cases hk : s.cnt = 31#5
  · simp [Invariant, hk]
  · have hpos : cntAfterStep s.cnt ≠ 0#5 := by
      intro h0
      have hsucc := toNat_cntAfterStep hk
      simp [h0] at hsucc
    simp [Invariant, busyAfterStep_of_ne hk, hpos]

/-- Settles O30, by the event of the edge: a reset and a `STEP` keep the invariant whatever stood
before, and the accept of a `FOLD` holds no command. -/
theorem everyStepKeepsTheInvariant : Obligations.EveryStepKeepsTheInvariant := by
  intro s t ⟨hidle, _⟩ h
  obtain ⟨_, ⟨_, rfl⟩ | ⟨_, _, rfl⟩ | ⟨i, hacc, hb, hexec⟩ | ⟨_, hb, _, rfl⟩⟩ := step_event_cases h
  · simp [Invariant]
  · exact invariant_microStep _
  · have hheld := sampled_held_of_accepted hacc
    obtain ⟨_, rfl⟩ | ⟨_, rfl⟩ | ⟨w, _, rfl⟩ | ⟨_, rfl⟩ := exec_cases hexec <;>
      simp [Invariant, hb, hidle hb, hheld]
  · simp [Invariant, hb, hidle hb]

/-- Settles O31, by induction on the run from its end: the last step either accepts the fold, with no
step done, or performs one step more of the fold that was in progress. -/
theorem busyCountsTheStepsOfItsFold : Obligations.BusyCountsTheStepsOfItsFold := by
  intro s t n hs hrun ht
  induction n generalizing t with
  | zero =>
    cases hrun
    simp [hs] at ht
  | succ n ih =>
    obtain ⟨v, hv, hlast⟩ := step_of_run_snoc hrun
    cases hb : v.busy with
    | false =>
      obtain ⟨hacc, hcnt, hcrc⟩ := fold_accepted_of_starts hlast hb ht
      exact ⟨n, v, by simp [hcnt], hv, hb, hacc, by simp [hcnt, hcrc]⟩
    | true =>
      obtain ⟨k, u, hn, hu, hidle, hacc, hfold⟩ := ih v hv hb
      obtain ⟨hcrc, hcnt, hwreg⟩ := stepped_of_stays_busy hlast hb ht
      refine ⟨k, u, by omega, hu, hidle, by rw [hwreg, hacc], ?_⟩
      rw [hcrc, hcnt, hwreg, hfold, step1_foldSteps rfl]

/-- What an accepted command does never reads `wreg`; a `FOLD` overwrites it (R24, R88). -/
theorem exec_setWreg {i : Instr} {s t : State} (x : Word) (hs : s.busy = false)
    (h : exec i s = .next t) :
    ∃ y, exec i (s.setWreg x) = .next (t.setWreg y) ∧ (t.busy = true → y = t.wreg) := by
  obtain ⟨rfl, rfl⟩ | ⟨rfl, rfl⟩ | ⟨w, rfl, rfl⟩ | ⟨rfl, rfl⟩ := exec_cases h
  · exact ⟨x, rfl, by simp [hs]⟩
  · exact ⟨x, rfl, by simp [hs]⟩
  · exact ⟨w, rfl, fun _ => rfl⟩
  · exact ⟨x, rfl, by simp [hs]⟩

/-- A step from an idle state never reads `wreg`. -/
theorem step_setWreg_of_idle {s t : State} (x : Word) (hs : s.busy = false)
    (h : step s = .next t) :
    ∃ y, step (s.setWreg x) = .next (t.setWreg y) ∧ (t.busy = true → y = t.wreg) := by
  obtain ⟨hk, ⟨hr, rfl⟩ | ⟨_, hb, _⟩ | ⟨i, hacc, _, hexec⟩ | ⟨hr, _, hv, rfl⟩⟩ := step_event_cases h
  · exact ⟨x, step_of_reset (s := s.setWreg x) hk hr, by simp⟩
  · simp [hs] at hb
  · rw [step_of_accepted (s := s.setWreg x) hk hacc, sampled_setWreg]
    exact exec_setWreg (s := sampled s) x hs hexec
  · exact ⟨x, step_of_quiet (s := s.setWreg x) hk hr hs hv, by simp [hs]⟩

/-- Two runs that differ at most in an idle `wreg` stay so. -/
theorem run_setWreg {n : Nat} {s t : State} {x : Word} (hx : s.busy = true → x = s.wreg)
    (h : run n s = .next t) :
    ∃ y, run n (s.setWreg x) = .next (t.setWreg y) ∧ (t.busy = true → y = t.wreg) := by
  induction n generalizing s x with
  | zero =>
    cases h
    exact ⟨x, rfl, hx⟩
  | succ n ih =>
    cases hb : s.busy with
    | true =>
      rw [hx hb]
      exact ⟨t.wreg, h, fun _ => rfl⟩
    | false =>
      obtain ⟨u, hu, hrest⟩ := step_of_run_succ h
      obtain ⟨y, hy, hyu⟩ := step_setWreg_of_idle x hb hu
      rw [run_succ hy]
      exact ih hyu hrest

/-- Settles O39: from an idle state nothing is asked of the other value of `wreg`. -/
theorem idleWregIsNeverRead : Obligations.IdleWregIsNeverRead := by
  intro s t v n hs hrun
  exact run_setWreg (by simp [hs]) hrun

/-- Settles O28, by the event of the edge and, where a command is accepted, by the command. -/
theorem registersAreWrittenOnlyWhereNamed : Obligations.RegistersAreWrittenOnlyWhereNamed := by
  intro s t h
  obtain ⟨_, ⟨hr, rfl⟩ | ⟨hr, hb, rfl⟩ | ⟨i, hacc, hb, hexec⟩ | ⟨_, hb, _, rfl⟩⟩ := step_event_cases h
  · simp [hr]
  · simp [hr, hb, busyAfterStep_eq_false]
  · obtain ⟨rfl, rfl⟩ | ⟨rfl, rfl⟩ | ⟨w, rfl, rfl⟩ | ⟨rfl, rfl⟩ := exec_cases hexec <;>
      simp [hacc, hb]
  · simp [hb]

/-- Settles O7: the registers by their reset values, the outputs from `busy` and `rst`. -/
theorem resetStateIsSeededIdleReady : Obligations.ResetStateIsSeededIdleReady := by
  refine ⟨rfl, rfl, rfl, fun e hr => cmdReady_eq_true.mpr ⟨rfl, hr⟩, fun e hr => ?_⟩
  have hnot : cmdReady State.reset e = false := by simp [cmdReady, hr]
  simp [rspValid, hnot]

/-- Settles O29: after reset the block is idle with `cnt` 0. -/
theorem resetMeetsTheInvariant : Obligations.ResetMeetsTheInvariant :=
  ⟨fun _ => rfl, fun _ _ => rfl⟩

end Sys2Proof.Machine
end

section
/-! ### The host's words (`20_memory.md` R42 to R46) and the repetition of commands (R49) -/

namespace Sys2Proof.Machine

/-! #### `PACK` (R44, R121) -/

/-- Eight bits of a packed word come from each byte, the lowest eight from the byte at the lowest
offset: a byte has no bit above 7, so no two of the shifted bytes overlap. -/
theorem getLsbD_pack (b0 b1 b2 b3 : Byte) (i : Nat) :
    (pack b0 b1 b2 b3).getLsbD i =
      if i < 8 then b0.getLsbD i else if i < 16 then b1.getLsbD (i - 8)
      else if i < 24 then b2.getLsbD (i - 16) else b3.getLsbD (i - 24) := by
  simp only [pack, BitVec.getLsbD_or, BitVec.getLsbD_shiftLeft, BitVec.getLsbD_setWidth]
  grind

/-- Settles O49, bit by bit: within its eight bits each byte is read back, and each bit of a word
lies in one of its four bytes. -/
theorem packPlacesLowestOffsetLast : Obligations.PackPlacesLowestOffsetLast := by
  refine ⟨fun b0 b1 b2 b3 => ⟨?_, ?_, ?_, ?_⟩, fun w => ?_⟩
  all_goals
    refine BitVec.eq_of_getLsbD_eq fun i hi => ?_
    grind [getLsbD_pack]

/-! #### The word stream (R42, R43, R46) -/

/-- Word `k` of a buffer: the bytes at offsets `4k` to `4k + 3`, 0 beyond the end (R43). -/
def wordAt (d : List Byte) (k : Nat) : Word :=
  pack (d.getD (4 * k) 0#8) (d.getD (4 * k + 1) 0#8) (d.getD (4 * k + 2) 0#8)
    (d.getD (4 * k + 3) 0#8)

@[simp] theorem wordAt_chunk_zero (b0 b1 b2 b3 : Byte) (rest : List Byte) :
    wordAt (b0 :: b1 :: b2 :: b3 :: rest) 0 = pack b0 b1 b2 b3 := rfl

@[simp] theorem wordAt_chunk_succ (b0 b1 b2 b3 : Byte) (rest : List Byte) (k : Nat) :
    wordAt (b0 :: b1 :: b2 :: b3 :: rest) (k + 1) = wordAt rest k := rfl

@[simp] theorem wordCount_chunk (b0 b1 b2 b3 : Byte) (rest : List Byte) :
    wordCount (b0 :: b1 :: b2 :: b3 :: rest) = wordCount rest + 1 := by
  simp only [wordCount, Config.chunkBytes, List.length_cons]
  omega

/-- The word stream by offsets, a whole chunk at a time. -/
theorem wordsOf_eq_map_wordAt (d : List Byte) :
    wordsOf d = (List.range (wordCount d)).map (wordAt d) := by
  induction d using wordsOf.induct with
  | case1 => rfl
  | case2 b0 => simp [wordCount, Config.chunkBytes, wordAt]
  | case3 b0 b1 => simp [wordCount, Config.chunkBytes, wordAt]
  | case4 b0 b1 b2 => simp [wordCount, Config.chunkBytes, wordAt]
  | case5 b0 b1 b2 b3 rest ih => simp [ih, List.range_succ_eq_map]

/-- Settles O50: the length and the words of the stream as the offsets give them. -/
theorem wordStreamOfTheBuffer : Obligations.WordStreamOfTheBuffer := by
  intro d
  rw [wordsOf_eq_map_wordAt]
  refine ⟨by simp [wordCount], fun k hk => ?_⟩
  have hk' : k < wordCount d := hk
  simp [hk', wordAt]

/-! #### The word-level run, one equation per command, and repeated commands (R49) -/

@[simp] theorem wordRun_init (is : List Instr) (c : Word) :
    wordRun (.init :: is) c = wordRun is Config.seed := rfl

@[simp] theorem wordRun_fold (w : Word) (is : List Instr) (c : Word) :
    wordRun (.fold w :: is) c = wordRun is (fold32 c w) := rfl

@[simp] theorem wordRun_read (is : List Instr) (c : Word) :
    wordRun (.read :: is) c = ((wordRun is c).1, c :: (wordRun is c).2) := rfl

/-- Folding 0 into 1 gives `POLY`, which is `x^32` modulo the generator (R111). -/
theorem fold32_one_zero : fold32 1#32 0#32 = Config.poly := by decide

theorem fold32_poly_zero : fold32 Config.poly 0#32 = 0x490D678D#32 := by decide

/-- Settles O38. Both refuting folds are of the word 0 into `crc` 1: it becomes `POLY`, and a second
such fold changes it again. -/
theorem idempotenceOfCommands : Obligations.IdempotenceOfCommands := by
  refine ⟨fun c => by simp, fun c => by simp, ⟨1#32, 0#32, ?_⟩, ⟨1#32, ?_⟩⟩
  · simp only [wordRun_fold, wordRun_nil, fold32_one_zero, fold32_poly_zero]
    decide
  · simp only [wordRun_fold, wordRun_nil, fold32_one_zero]
    decide

end Sys2Proof.Machine
end

section
/-! ### Command words by their two fields (`30_encoding.md` R60 to R67) -/

namespace Sys2Proof

/-! #### The fields of a word (R60) -/

@[simp] theorem opField_append (op : BitVec 2) (d : Word) : opField (op ++ d) = op :=
  BitVec.extractLsb'_append_eq_left

@[simp] theorem dataField_append (op : BitVec 2) (d : Word) : dataField (op ++ d) = d :=
  BitVec.extractLsb'_append_eq_right

theorem opField_append_dataField (c : Cmd34) : opField c ++ dataField c = c := by
  have hjoin : opField c ++ dataField c = c.extractLsb' 0 34 :=
    BitVec.extractLsb'_append_extractLsb'_eq_extractLsb' rfl
  rw [hjoin, BitVec.extractLsb'_eq_self]

theorem dataField_eq_setWidth (c : Cmd34) : dataField c = c.setWidth 32 :=
  (BitVec.setWidth_eq_extractLsb' (by decide)).symm

/-- The mask of R61 keeps the opcode field and clears the data field. -/
theorem and_mask (c : Cmd34) : c &&& 0x300000000#34 = opField c ++ 0#32 := by
  have hmask : (0x300000000#34 : Cmd34) = 3#2 ++ 0#32 := rfl
  have hop : opField c &&& 3#2 = opField c := BitVec.and_allOnes
  rw [← opField_append_dataField c, hmask, BitVec.and_append, opField_append, hop, BitVec.and_zero]

/-- The masked word is the `match` of a row of R61 exactly when the opcode field is the row's. -/
theorem and_mask_eq_iff (c : Cmd34) (op : BitVec 2) :
    c &&& 0x300000000#34 = op ++ 0#32 ↔ opField c = op := by
  rw [and_mask, BitVec.append_left_inj]

/-- There is no fifth opcode (R66). -/
theorem opField_cases (c : Cmd34) :
    opField c = 0#2 ∨ opField c = 1#2 ∨ opField c = 2#2 ∨ opField c = 3#2 := by
  have hall : ∀ op : BitVec 2, op = 0#2 ∨ op = 1#2 ∨ op = 2#2 ∨ op = 3#2 := by decide
  exact hall _

/-! #### The decoder, a row at a time (R61) -/

theorem decode_of_op0 {c : Cmd34} (h : opField c = 0#2) : decode c = .nop := by simp [decode, h]

theorem decode_of_op1 {c : Cmd34} (h : opField c = 1#2) : decode c = .init := by simp [decode, h]

theorem decode_of_op2 {c : Cmd34} (h : opField c = 2#2) : decode c = .fold (dataField c) := by
  simp [decode, h]

theorem decode_of_op3 {c : Cmd34} (h : opField c = 3#2) : decode c = .read := by simp [decode, h]

/-- The opcode of a command (R61). -/
def opcode : Instr → BitVec 2
  | .nop => 0#2
  | .init => 1#2
  | .fold _ => 2#2
  | .read => 3#2

/-- The decoder keeps the opcode. -/
@[simp] theorem opcode_decode (c : Cmd34) : opcode (decode c) = opField c := by
  obtain h | h | h | h := opField_cases c
  · rw [decode_of_op0 h, h, opcode]
  · rw [decode_of_op1 h, h, opcode]
  · rw [decode_of_op2 h, h, opcode]
  · rw [decode_of_op3 h, h, opcode]

theorem decode_eq_nop {c : Cmd34} : decode c = .nop ↔ opField c = 0#2 :=
  ⟨fun h => by rw [← opcode_decode, h, opcode], decode_of_op0⟩

theorem decode_eq_init {c : Cmd34} : decode c = .init ↔ opField c = 1#2 :=
  ⟨fun h => by rw [← opcode_decode, h, opcode], decode_of_op1⟩

theorem decode_eq_read {c : Cmd34} : decode c = .read ↔ opField c = 3#2 :=
  ⟨fun h => by rw [← opcode_decode, h, opcode], decode_of_op3⟩

theorem decode_eq_fold {c : Cmd34} {w : Word} :
    decode c = .fold w ↔ opField c = 2#2 ∧ dataField c = w := by
  constructor
  · intro h
    have hop : opField c = 2#2 := by rw [← opcode_decode, h, opcode]
    rw [decode_of_op2 hop] at h
    exact ⟨hop, Instr.fold.inj h⟩
  · rintro ⟨hop, rfl⟩
    exact decode_of_op2 hop

/-- Settles O2: the mask picks out the opcode field, and each row of the decoder is its opcode. -/
theorem decoderFollowsOpcodeMap : Obligations.DecoderFollowsOpcodeMap := by
  intro c
  rw [← dataField_eq_setWidth]
  refine ⟨?_, ?_, ?_, fun w h => (decode_eq_fold.mp h).2.symm, ?_⟩
  · exact decode_eq_nop.trans (and_mask_eq_iff c 0#2).symm
  · exact decode_eq_init.trans (and_mask_eq_iff c 1#2).symm
  · rw [decode_eq_fold, eq_self, and_true]
    exact (and_mask_eq_iff c 2#2).symm
  · exact decode_eq_read.trans (and_mask_eq_iff c 3#2).symm

/-! #### The encoder (R67, R69) and table words (assumption log 13) -/

@[simp] theorem decode_encode (i : Instr) : decode (encode i) = i := by
  cases i with
  | nop => exact decode_of_op0 (opField_append _ _)
  | init => exact decode_of_op1 (opField_append _ _)
  | fold w => exact decode_eq_fold.mpr ⟨opField_append _ _, dataField_append _ _⟩
  | read => exact decode_of_op3 (opField_append _ _)

/-- Encoding keeps the opcode, the data field of `FOLD` and no other data field. -/
theorem encode_decode (c : Cmd34) :
    encode (decode c) = if opField c = 2#2 then c else opField c ++ 0#32 := by
  obtain h | h | h | h := opField_cases c
  · rw [decode_of_op0 h, h]
    rfl
  · rw [decode_of_op1 h, h]
    rfl
  · rw [decode_of_op2 h, if_pos h, encode, ← h, opField_append_dataField]
  · rw [decode_of_op3 h, h]
    rfl

/-- A number is read as a command exactly when it is a command word, and then as its command. -/
theorem decodeTableWord_eq_some {nbits w : Nat} {i : Instr} :
    decodeTableWord nbits w = some i ↔
      w % 2 ^ nbits < 2 ^ 34 ∧ decode (BitVec.ofNat 34 (w % 2 ^ nbits)) = i := by
  rw [decodeTableWord, decodeNat, isCmd34]
  by_cases hw : w % 2 ^ nbits < 2 ^ 34
  · simp only [hw, decide_true, if_true, Option.some.injEq, true_and]
  · simp only [hw, decide_false, Bool.false_eq_true, if_false, reduceCtorEq, false_and]

/-- A table entry of 34 bits or more reads a command word as it stands. -/
theorem decodeTableWord_toNat {nbits : Nat} (h : 34 ≤ nbits) (c : Cmd34) :
    decodeTableWord nbits c.toNat = some (decode c) := by
  have hfit : c.toNat % 2 ^ nbits = c.toNat :=
    Nat.mod_eq_of_lt (c.isLt.trans_le (Nat.pow_le_pow_right (by decide) h))
  rw [decodeTableWord_eq_some, hfit, BitVec.ofNat_toNat, BitVec.setWidth_eq]
  exact ⟨c.isLt, rfl⟩

/-- Settles O3: a command's word has the command's opcode and data field, and a word is made of its
two fields, of which the encoder keeps the second for `FOLD` only. -/
theorem decodeInvertsEncode : Obligations.DecodeInvertsEncode := by
  refine ⟨fun i => ⟨decode_encode i, ?_, ?_⟩, fun c => ?_⟩
  · rw [decodeTableWord_toNat (by decide), decode_encode]
  · rw [decodeTableWord_toNat (by decide), decode_encode]
  · rw [encode_decode, and_mask]

/-- Settles O4: the decoder reads the data field in the row of `FOLD` only. -/
theorem ignoredDataFieldSelectsNothing : Obligations.IgnoredDataFieldSelectsNothing := by
  refine ⟨fun c d hop hne => ?_, fun c => decode_eq_nop, decode_of_op0 rfl, dataField_append _ _,
    dataField_append _ _, dataField_append _ _⟩
  have hne' : opField d ≠ 2#2 := hop ▸ hne
  simp only [decode, hop, if_neg hne']

/-- Settles O1, by evaluating the decoder on the listed words. -/
theorem commandWordsDecodeAsListed : Obligations.CommandWordsDecodeAsListed := by
  unfold Obligations.CommandWordsDecodeAsListed
  decide

end Sys2Proof
end

section
/-! ### Hexadecimal digits and the assembler (`30_encoding.md` R60, R69, R70) -/

namespace Sys2Proof.Machine

/-! #### The display (R70) -/

theorem hexDigit_mem (v : BitVec 4) :
    hexDigit v ∈ ['0', '1', '2', '3', '4', '5', '6', '7', '8', '9', 'A', 'B', 'C', 'D', 'E',
      'F'] := by
  revert v
  decide

@[simp] theorem hexValue_hexDigit (v : BitVec 4) : hexValue (hexDigit v) = some v.toNat := by
  revert v
  decide

@[simp] theorem hexDigits_nil (acc : Nat) : hexDigits acc [] = some acc := rfl

@[simp] theorem hexDigits_hexDigit_cons (acc : Nat) (v : BitVec 4) (cs : List Char) :
    hexDigits acc (hexDigit v :: cs) = hexDigits (16 * acc + v.toNat) cs := by
  simp [hexDigits]

@[simp] theorem length_hex8 (w : Word) : (hex8 w).length = 8 := rfl

theorem exists_hexDigit_of_mem_hex8 {w : Word} {ch : Char} (h : ch ∈ hex8 w) :
    ∃ v, ch = hexDigit v := by
  obtain ⟨lo, _, rfl⟩ := List.mem_map.mp h
  exact ⟨_, rfl⟩

/-- The eight digits are the eight nibbles of the word, the highest first. -/
@[simp] theorem hexDigits_hex8 (w : Word) : hexDigits 0 (hex8 w) = some w.toNat := by
  have hlt : w.toNat < 2 ^ 32 := w.isLt
  simp only [hex8, List.map_cons, List.map_nil, hexDigits_hexDigit_cons, hexDigits_nil,
    BitVec.extractLsb'_toNat, Nat.shiftRight_eq_div_pow, Option.some.injEq]
  omega

/-- Settles O6: each digit is that of a nibble, and the nibbles spell the word. -/
theorem displayIsEightUpperCaseHexDigits : Obligations.DisplayIsEightUpperCaseHexDigits := by
  refine ⟨fun w => ⟨length_hex8 w, fun ch h => ?_, hexDigits_hex8 w⟩, by decide⟩
  obtain ⟨v, rfl⟩ := exists_hexDigit_of_mem_hex8 h
  exact hexDigit_mem v

/-! #### The tokens of a line (R69, assumption log 14) -/

/-- The characters of a mnemonic or a literal: those that neither separate tokens, nor are tokens of
their own, nor start a comment. -/
abbrev plainChar (c : Char) : Prop := c ≠ ' ' ∧ c ≠ ',' ∧ c ≠ '[' ∧ c ≠ ']' ∧ c ≠ ';'

theorem plainChar_hexDigit (v : BitVec 4) : plainChar (hexDigit v) := by
  revert v
  decide

theorem plainChar_of_mem_hex8 {w : Word} {ch : Char} (h : ch ∈ hex8 w) : plainChar ch := by
  obtain ⟨v, rfl⟩ := exists_hexDigit_of_mem_hex8 h
  exact plainChar_hexDigit v

/-- Plain characters are collected into one run. -/
theorem tokenize_plain {cs : List Char} (h : ∀ c ∈ cs, plainChar c) (cur rest : List Char) :
    tokenize cur (cs ++ rest) = tokenize (cur ++ cs) rest := by
  induction cs generalizing cur with
  | nil => simp
  | cons c cs ih =>
    obtain ⟨⟨hspace, hcomma, hopen, hclose, _⟩, hcs⟩ := List.forall_mem_cons.mp h
    rw [List.cons_append, tokenize, if_neg hspace, if_neg hcomma, if_neg hopen, if_neg hclose,
      ih hcs, List.append_assoc, List.singleton_append]

/-- A plain run at the end of a line is its last token. -/
theorem tokenize_plain_end {cs : List Char} (h : ∀ c ∈ cs, plainChar c) (hne : cs ≠ []) :
    tokenize [] cs = [.word cs] := by
  rw [← List.append_nil cs, tokenize_plain h]
  simp [tokenize, flush, hne]

/-- A space ends the plain run before it. -/
theorem tokenize_plain_space {cs : List Char} (h : ∀ c ∈ cs, plainChar c) (hne : cs ≠ [])
    (rest : List Char) : tokenize [] (cs ++ ' ' :: rest) = .word cs :: tokenize [] rest := by
  rw [tokenize_plain h]
  simp [tokenize, flush, hne]

/-- A space at the end of a line makes no token. -/
theorem tokenize_append_space (cur cs : List Char) :
    tokenize cur (cs ++ [' ']) = tokenize cur cs := by
  induction cs generalizing cur with
  | nil => simp [tokenize, flush]
  | cons c cs ih => simp only [List.cons_append, tokenize, ih]

theorem stripComment_of_not_mem {cs : List Char} (h : ';' ∉ cs) : stripComment cs = cs := by
  rw [stripComment, List.takeWhile_eq_self_iff]
  intro c hc
  exact decide_eq_true (ne_of_mem_of_not_mem hc h)

/-- Where nothing before it starts a comment, `;` ends the line. -/
theorem stripComment_append {cs : List Char} (h : ';' ∉ cs) (comment : List Char) :
    stripComment (cs ++ ';' :: comment) = cs := by
  have hcs := stripComment_of_not_mem h
  rw [stripComment] at hcs ⊢
  rw [List.takeWhile_append, hcs, if_pos rfl, List.takeWhile_cons_of_neg (by decide),
    List.append_nil]

/-! #### The line of a command (R69) -/

/-- The tokens of a command's line: the mnemonic and, for `FOLD`, the literal. -/
def asmTokens : Instr → List Token
  | .nop => [.word ['N', 'O', 'P']]
  | .init => [.word ['I', 'N', 'I', 'T']]
  | .fold w => [.word ['F', 'O', 'L', 'D'], .word ('0' :: 'x' :: hex8 w)]
  | .read => [.word ['R', 'E', 'A', 'D']]

theorem plainChar_of_mem_literal {w : Word} : ∀ c ∈ '0' :: 'x' :: hex8 w, plainChar c := by
  simp only [List.forall_mem_cons]
  exact ⟨by decide, by decide, fun _ => plainChar_of_mem_hex8⟩

theorem tokenize_asmLine (i : Instr) : tokenize [] (asmLine i) = asmTokens i := by
  cases i with
  | nop => rfl
  | init => rfl
  | read => rfl
  | fold w =>
    calc tokenize [] (['F', 'O', 'L', 'D'] ++ ' ' :: '0' :: 'x' :: hex8 w)
        = .word ['F', 'O', 'L', 'D'] :: tokenize [] ('0' :: 'x' :: hex8 w) :=
          tokenize_plain_space (by simp [plainChar]) (by simp) _
      _ = asmTokens (.fold w) := by
          rw [tokenize_plain_end plainChar_of_mem_literal (by simp), asmTokens]

theorem semicolon_not_mem_asmLine (i : Instr) : ';' ∉ asmLine i := by
  cases i with
  | nop => decide
  | init => decide
  | read => decide
  | fold w =>
    have hdigits : ';' ∉ hex8 w := by
      intro h
      obtain ⟨_, _, _, _, hne⟩ := plainChar_of_mem_hex8 h
      exact hne rfl
    simp [asmLine, hdigits]

@[simp] theorem hexLiteral_hex8 (w : Word) :
    hexLiteral 8 ('0' :: 'x' :: hex8 w) = some w.toNat := by
  simp [hexLiteral]

@[simp] theorem parseFold_hex8 (w : Word) :
    parseFold [.word ('0' :: 'x' :: hex8 w)] = some (.command (.fold w)) := by
  simp [parseFold]

/-- A line with the tokens of a command is that command. -/
theorem parseLine_of_asmTokens {cs : List Char} {i : Instr}
    (h : tokenize [] (stripComment cs) = asmTokens i) :
    parseLine cs = .ok (some (.command i)) := by
  rw [parseLine, h]
  cases i with
  | nop => rfl
  | init => rfl
  | read => rfl
  | fold w => simp [asmTokens, parseTokens, Except.map]

theorem assembleLine_of_asmTokens {cs : List Char} {i : Instr}
    (h : tokenize [] (stripComment cs) = asmTokens i) : assembleLine cs = .ok [encode i] := by
  simp [assembleLine, parseLine_of_asmTokens h, expandLine]

/-- The nine digits of a word made of its two fields (R60). -/
theorem hex9_append (op : BitVec 2) (d : Word) :
    hex9 (op ++ d) = hexDigit (op.setWidth 4) :: hex8 d := by
  rw [hex9, opField_append, dataField_append]

/-- Settles O5: with or without a comment the line has the command's tokens, and the word's nine
digits are those of its two fields. -/
theorem assemblerEmitsTheCommandWord : Obligations.AssemblerEmitsTheCommandWord := by
  refine ⟨fun i => ?_, fun i comment => ?_, fun w => hex9_append _ _, hex9_append _ _,
    hex9_append _ _, hex9_append _ _⟩
  · apply assembleLine_of_asmTokens
    rw [stripComment_of_not_mem (semicolon_not_mem_asmLine i), tokenize_asmLine]
  · have hline : ';' ∉ asmLine i ++ [' '] := by simp [semicolon_not_mem_asmLine]
    apply assembleLine_of_asmTokens
    rw [List.append_cons, stripComment_append hline, tokenize_append_space, tokenize_asmLine]

end Sys2Proof.Machine
end

section
/-! ### Acceptance, hold and response at one edge (`30_encoding.md` R63 to R65) -/

namespace Sys2Proof.Machine

theorem sampled_of_accepted {s : State} {i : Instr} (h : acceptedNext s = some i) :
    sampled s = (popEdge s).setHeld none :=
  congrArg (popEdge s).setHeld (sampled_held_of_accepted h)

/-- While nothing is presented `cmd` is not looked at (R63). -/
theorem clockEdge_cmd_unread (r : Bool) (c d : Cmd34) (s : State) :
    clockEdge ⟨r, false, c⟩ s = clockEdge ⟨r, false, d⟩ s := by
  have hbroken : handshakeBroken s.held ⟨r, false, c⟩ = handshakeBroken s.held ⟨r, false, d⟩ := by
    cases s.held <;> rfl
  simp [clockEdge, hbroken, heldAfter]

/-- Settles O20: acceptance is R63's, an accepting edge holds no command, and `cmd` alone changes
nothing. -/
theorem acceptedCommandRunsAtItsEdge : Obligations.AcceptedCommandRunsAtItsEdge := by
  refine ⟨fun s i => acceptedNext_eq_some, fun s i hk hacc => ?_, fun s r c d rest => ?_⟩
  · rw [step_of_accepted hk hacc, sampled_of_accepted hacc]
    rfl
  · exact clockEdge_cmd_unread r c d (s.setInputs rest)

/-! #### A block that is not ready (R64) -/

/-- What an edge does to a block that is busy or in reset (R105, cases 1 and 2). -/
def unreadyEdge (r : Bool) (s : State) : State := if r then resetRegisters s else microStep s

theorem unreadyEdge_setHeld (r : Bool) (s : State) (h : Option Cmd34) :
    unreadyEdge r (s.setHeld h) = (unreadyEdge r s).setHeld h := by
  cases r <;> rfl

/-- What an edge does to a block that is not ready reads `rst` only; what is presented is held. -/
theorem clockEdge_of_unready {e : Edge} {s : State} (hk : handshakeBroken s.held e = false)
    (h : s.busy = true ∨ e.rst = true) :
    clockEdge e s =
      .next ((unreadyEdge e.rst s).setHeld (if e.cmdValid then some e.cmd else none)) := by
  rw [← unreadyEdge_setHeld]
  cases hr : e.rst with
  | true => simp [clockEdge, hk, hr, heldAfter, cmdReady, unreadyEdge]
  | false =>
    have hb : s.busy = true := by simpa [hr] using h
    simp [clockEdge, hk, hr, hb, heldAfter, cmdReady, unreadyEdge]

theorem unreadyEdge_responses (r : Bool) (s : State) :
    (unreadyEdge r s).responses = s.responses := by
  cases r <;> rfl

theorem unreadyEdge_wreg (r : Bool) (s : State) : (unreadyEdge r s).wreg = s.wreg := by
  cases r <;> rfl

theorem unreadyEdge_inputs (r : Bool) (s : State) : (unreadyEdge r s).inputs = s.inputs := by
  cases r <;> rfl

/-- Settles O21: what the edge does to a block that is not ready does not read what is presented. -/
theorem heldCommandHasNoEffect : Obligations.HeldCommandHasNoEffect := by
  intro s r c d rest hunready hheld
  refine ⟨unreadyEdge r (s.setInputs rest), ?_, ?_, unreadyEdge_responses .., unreadyEdge_wreg ..,
    unreadyEdge_inputs ..⟩
  · have hk : handshakeBroken s.held ⟨r, true, c⟩ = false := by
      obtain h | h := hheld <;> simp [h, handshakeBroken]
    exact clockEdge_of_unready (s := s.setInputs rest) hk hunready
  · have hquiet := clockEdge_of_unready (e := ⟨r, false, d⟩) (s := (s.setInputs rest).setHeld none)
      rfl hunready
    rw [unreadyEdge_setHeld] at hquiet
    exact hquiet

/-! #### Responses (R65) -/

theorem rspValid_eq_true {s : State} {e : Edge} :
    rspValid s e = true ↔
      e.cmdValid = true ∧ s.busy = false ∧ e.rst = false ∧ opField e.cmd = 3#2 := by
  simp [rspValid, cmdReady, and_assoc]

/-- `rsp_valid` says that a `READ` is accepted. -/
theorem rspValid_iff_read_accepted {s : State} :
    rspValid s (nextEdge s) = true ↔ acceptedNext s = some .read := by
  rw [rspValid_eq_true, acceptedNext_eq_some, decode_eq_read]

theorem rspData_of_read {s : State} (h : acceptedNext s = some .read) :
    rspData s (nextEdge s) = some s.crc :=
  if_pos (rspValid_iff_read_accepted.mpr h)

theorem rspData_of_not_read {s : State} (h : acceptedNext s ≠ some .read) :
    rspData s (nextEdge s) = none :=
  if_neg (rspValid_iff_read_accepted.not.mpr h)

/-- The accept of a `READ` delivers `crc` and does nothing else (R85). -/
theorem eq_respond_of_read {s t : State} (h : step s = .next t)
    (hread : acceptedNext s = some .read) : t = respond s.crc (sampled s) := by
  obtain ⟨hk, _⟩ := step_event_cases h
  rw [step_of_accepted hk hread] at h
  cases h
  rfl

/-- Nothing but the accept of a `READ` delivers a response. -/
theorem responses_eq_of_not_read {s t : State} (h : step s = .next t)
    (hread : acceptedNext s ≠ some .read) : t.responses = s.responses := by
  obtain ⟨_, ⟨_, rfl⟩ | ⟨_, _, rfl⟩ | ⟨i, hacc, _, hexec⟩ | ⟨_, _, _, rfl⟩⟩ :=
    step_event_cases h
  · rfl
  · rfl
  · obtain ⟨_, rfl⟩ | ⟨_, rfl⟩ | ⟨w, _, rfl⟩ | ⟨rfl, _⟩ := exec_cases hexec
    · rfl
    · rfl
    · rfl
    · exact absurd hacc hread
  · rfl

theorem step_responses {s t : State} (h : step s = .next t) :
    t.responses = s.responses ++ (rspData s (nextEdge s)).toList := by
  by_cases hread : acceptedNext s = some .read
  · simp [eq_respond_of_read h hread, rspData_of_read hread]
  · simp [responses_eq_of_not_read h hread, rspData_of_not_read hread]

/-- Settles O23: op 3 is `READ`, and a step records what `rsp_data` carries. -/
theorem responsesAreTheAcceptedReads : Obligations.ResponsesAreTheAcceptedReads := by
  refine ⟨fun s e => rspValid_eq_true, fun s => rspValid_iff_read_accepted,
    fun s e hv => if_pos hv, fun s t h => ⟨step_responses h, fun hv => ?_⟩⟩
  rw [eq_respond_of_read h (rspValid_iff_read_accepted.mp hv), respond_crc, sampled_crc]

/-! #### A placed word (assumption log 12) -/

theorem settleFor_wreg (n : Nat) (s : State) : (settleFor n s).wreg = s.wreg := by
  induction n generalizing s with
  | zero => rfl
  | succ n ih =>
    unfold settleFor
    split
    · rw [ih, microStep_wreg]
    · rfl

/-- A placed word is accepted at the next edge, by the settled block. -/
theorem step_presentNext (c : Cmd34) (s : State) :
    step (presentNext c s) = exec (decode c) ((settle s).setHeld none) := by
  have hacc : acceptedNext (presentNext c s) = some (decode c) :=
    acceptedNext_eq_some.mpr ⟨rfl, settle_busy s, rfl, rfl⟩
  rw [step_of_accepted rfl hacc, sampled_of_accepted hacc]
  rfl

/-- Settles O60: the state is the settled one with no command held. -/
theorem fetchedWordIsTheNextCommandRun : Obligations.FetchedWordIsTheNextCommandRun := by
  intro s nbits w i hi
  obtain ⟨_, hdecode⟩ := decodeTableWord_eq_some.mp hi
  refine ⟨(settle s).setHeld none, ?_, settle_busy s, rfl, settleFor_inputs _ s,
    settleFor_responses _ s, settleFor_wreg _ s, rfl, fun hb => ?_⟩
  · rw [State.withFetchWord, step_presentNext, hdecode]
  · rw [settle_of_idle hb]
    rfl

end Sys2Proof.Machine
end

section
/-! ### What an accepted command does, alone and at its edge (`40_word_commands.md` R80 to R85) -/

namespace Sys2Proof.Machine

@[simp] theorem exec_nop (s : State) : exec .nop s = .next s := rfl
@[simp] theorem exec_init (s : State) : exec .init s = .next (s.setCrc Config.seed) := rfl
@[simp] theorem exec_fold (w : Word) (s : State) : exec (.fold w) s = .next (startFold w s) := rfl
@[simp] theorem exec_read (s : State) : exec .read s = .next (respond s.crc s) := rfl

/-- An idle block accepts what is presented (R63). -/
theorem acceptedNext_of_presents {s : State} {c : Cmd34} (hb : s.busy = false)
    (hp : presents s c) : acceptedNext s = some (decode c) := by
  simp [acceptedNext_eq_some, hp, presentEdge, hb]

/-- The edge of an idle block at which a command is presented is that command's effect. -/
theorem step_of_presents {s : State} {c : Cmd34} (hb : s.busy = false) (hk : keepsHandshake s)
    (hp : presents s c) : step s = exec (decode c) ((popEdge s).setHeld none) := by
  have hacc := acceptedNext_of_presents hb hp
  rw [step_of_accepted hk hacc, sampled_of_accepted hacc]

/-- An idle block answers a presented command exactly when its opcode is `READ`'s (R65). -/
theorem rspValid_of_presents {s : State} {c : Cmd34} (hb : s.busy = false) (hp : presents s c) :
    rspValid s (nextEdge s) = decide (opField c = 3#2) := by
  simp [rspValid, cmdReady, hp, presentEdge, hb]

/-- Settles O11: the accepting edge and an edge that presents nothing both come to the sampled
state. -/
theorem nopChangesNothing : Obligations.NopChangesNothing := by
  refine ⟨exec_nop, fun s c hb hk hp hop => ⟨?_, ?_⟩, fun s c d rest hb hheld hop => ?_⟩
  · rw [step_of_presents hb hk hp, decode_of_op0 hop]
    rfl
  · simp [rspValid_of_presents hb hp, hop]
  · have hk (es : List Edge) : keepsHandshake (s.setInputs es) := by simp [keepsHandshake, hheld]
    have haccept : step (s.setInputs (presentEdge c :: rest)) = _ := step_of_presents hb (hk _) rfl
    have hquiet : step (s.setInputs (⟨false, false, d⟩ :: rest)) = _ :=
      step_of_quiet (hk _) rfl hb rfl
    rw [decode_of_op0 hop] at haccept
    exact haccept.trans hquiet.symm

/-- Settles O12: the effect of `INIT` does not depend on `crc`, so a second one changes nothing. -/
theorem initSeedsCrc : Obligations.InitSeedsCrc := by
  refine ⟨exec_init, fun s c hb hk hp hop => ⟨?_, ?_⟩, fun s t h => ?_⟩
  · rw [step_of_presents hb hk hp, decode_of_op1 hop]
    rfl
  · simp [rspValid_of_presents hb hp, hop]
  · cases h
    rfl

/-- Settles O14: a `READ` leaves `crc`, so a second one delivers the same value. -/
theorem readDeliversCrc : Obligations.ReadDeliversCrc := by
  refine ⟨exec_read, fun s c hb hk hp hop => ?_, fun s t u hst htu => ?_⟩
  · have hacc := acceptedNext_of_presents hb hp
    rw [decode_of_op3 hop] at hacc
    refine ⟨?_, rspValid_iff_read_accepted.mpr hacc, rspData_of_read hacc⟩
    rw [step_of_presents hb hk hp, decode_of_op3 hop]
    rfl
  · cases hst
    cases htu
    simp

/-- Settles O15, a command at a time: what the rule of a command does not name is as it was. -/
theorem commandsCompleteAndTouchOnlyTheirOwn :
    Obligations.CommandsCompleteAndTouchOnlyTheirOwn := by
  intro i s
  cases i with
  | nop => exact ⟨_, exec_nop s, by simp⟩
  | init => exact ⟨_, exec_init s, by simp⟩
  | fold w => exact ⟨_, exec_fold w s, by simp⟩
  | read => exact ⟨_, exec_read s, by simp⟩

end Sys2Proof.Machine
end

section
/-! ### The word level: the fold as a loop (R84) and lists of commands (R86, R87) -/

namespace Sys2Proof.Machine

/-- A step shifts and, when the feedback bit is 1, XORs the polynomial in (R101 to R104). -/
theorem step1_eq_ite (c : Word) (b : Bool) :
    step1 c b = if feedbackBit c b then (c <<< 1) ^^^ Config.poly else c <<< 1 := by
  cases h : feedbackBit c b <;> simp [step1, h]

/-- `c_n` is what `n` rounds of the loop over `i = 0, 1, ...` leave. -/
theorem foldSteps_eq_foldl (n : Nat) (c w : Word) :
    foldSteps n c w = (List.range n).foldl (fun r i => step1 r (w.getLsbD (31 - i))) c := by
  induction n with
  | zero => rfl
  | succ n ih => rw [foldSteps_succ, ih, List.range_succ, List.foldl_concat]

/-- Settles O16: each round of the source's loop is one step. -/
theorem foldIsTheBitSerialLoop : Obligations.FoldIsTheBitSerialLoop := by
  intro c w
  simp only [fold32, foldSteps_eq_foldl, step1_eq_ite]
  rfl

/-- The second list starts from the `crc` the first one leaves. -/
theorem wordRun_append (is js : List Instr) (c : Word) :
    wordRun (is ++ js) c =
      ((wordRun js (wordRun is c).1).1, (wordRun is c).2 ++ (wordRun js (wordRun is c).1).2) := by
  induction is generalizing c with
  | nil => rfl
  | cons i is ih => simp only [List.cons_append, wordRun_cons, ih, List.append_assoc]

/-- A list of `FOLD`s folds its words in order and answers nothing. -/
theorem wordRun_map_fold (ws : List Word) (c : Word) :
    wordRun (ws.map Instr.fold) c = (foldWords c ws, []) := by
  induction ws generalizing c with
  | nil => rfl
  | cons w ws ih => rw [List.map_cons, wordRun_fold, ih, foldWords_cons]

/-- Settles O34: a `READ` after the `FOLD`s is a second list, which answers the `crc` they leave. -/
theorem commandListsCompose : Obligations.CommandListsCompose := by
  refine ⟨wordRun_append, fun ws c => ?_⟩
  rw [wordRun_append, wordRun_map_fold]
  rfl

end Sys2Proof.Machine
end

section
/-! ### A fold edge by edge (`41_bit_step.md` R106 to R108) -/

namespace Sys2Proof.Machine

/-! #### The edges a run consumes -/

theorem exec_inputs {i : Instr} {s t : State} (h : exec i s = .next t) : t.inputs = s.inputs := by
  obtain ⟨_, rfl⟩ | ⟨_, rfl⟩ | ⟨w, _, rfl⟩ | ⟨_, rfl⟩ := exec_cases h <;> rfl

theorem step_inputs {s t : State} (h : step s = .next t) : t.inputs = s.inputs.tail := by
  obtain ⟨_, ⟨_, rfl⟩ | ⟨_, _, rfl⟩ | ⟨i, _, _, hexec⟩ | ⟨_, _, _, rfl⟩⟩ := step_event_cases h
  · rfl
  · rfl
  · exact exec_inputs hexec
  · rfl

theorem run_inputs {n : Nat} {s t : State} (h : run n s = .next t) :
    t.inputs = s.inputs.drop n := by
  induction n generalizing s with
  | zero =>
    cases h
    rfl
  | succ n ih =>
    obtain ⟨u, hu, hrest⟩ := step_of_run_succ h
    rw [ih hrest, step_inputs hu, List.drop_tail]

/-- After `n` edges the next edge is the one that was `n` edges ahead. -/
theorem nextEdge_of_run {n : Nat} {s t : State} (h : run n s = .next t) :
    nextEdge t = edgeAhead s n := by
  rw [nextEdge, run_inputs h, edgeAhead, List.headD_eq_head?_getD, List.head?_drop,
    List.getD_eq_getElem?_getD]

/-! #### The state of a fold -/

/-- The block has performed `n` of the steps of the fold of `w` that started from `crc = c`, and has
answered `rs` up to now. -/
structure FoldAt (c w : Word) (rs : List Word) (n : Nat) (s : State) : Prop where
  crc : s.crc = foldSteps n c w
  wreg : s.wreg = w
  cnt : s.cnt = BitVec.ofNat 5 n
  busy : s.busy = decide (n < 32)
  responses : s.responses = rs

/-- The accept of a `FOLD` performs no step yet (R107). -/
theorem foldAt_startFold (w : Word) (s : State) :
    FoldAt s.crc w s.responses 0 (startFold w s) :=
  ⟨rfl, rfl, rfl, rfl, rfl⟩

theorem ofNat_eq_last {n : Nat} (h : n < 32) : BitVec.ofNat 5 n = 31#5 ↔ n = 31 := by
  rw [BitVec.toNat_eq, BitVec.toNat_ofNat, BitVec.toNat_ofNat, Nat.mod_eq_of_lt h]

/-- The counter reaches 32 as 0 (R106). -/
theorem cntAfterStep_ofNat {n : Nat} (h : n < 32) :
    cntAfterStep (BitVec.ofNat 5 n) = BitVec.ofNat 5 (n + 1) := by
  by_cases hlast : n = 31
  · subst hlast
    rfl
  · rw [cntAfterStep_of_ne ((ofNat_eq_last h).not.mpr hlast), BitVec.ofNat_add]

theorem busyAfterStep_ofNat {n : Nat} (h : n < 32) :
    busyAfterStep (BitVec.ofNat 5 n) = decide (n + 1 < 32) := by
  rw [busyAfterStep, decide_eq_decide, ne_eq, ofNat_eq_last h]
  omega

/-- A `STEP` takes the fold one step further (R106, R108). -/
theorem foldAt_microStep {c w : Word} {rs : List Word} {n : Nat} {s : State}
    (h : FoldAt c w rs n s) (hn : n < 32) : FoldAt c w rs (n + 1) (microStep s) where
  crc := by
    have hcnt : s.cnt.toNat = n := by simp [h.cnt, Nat.mod_eq_of_lt hn]
    rw [microStep_crc, h.crc, h.wreg, step1_foldSteps hcnt]
  wreg := h.wreg
  cnt := by rw [microStep_cnt, h.cnt, cntAfterStep_ofNat hn]
  busy := by rw [microStep_busy, h.cnt, busyAfterStep_ofNat hn]
  responses := h.responses

theorem foldAt_sampled {c w : Word} {rs : List Word} {n : Nat} {s : State}
    (h : FoldAt c w rs n s) : FoldAt c w rs n (sampled s) :=
  ⟨h.crc, h.wreg, h.cnt, h.busy, h.responses⟩

/-- An edge of a busy block without a reset performs one `STEP` (R105 case 2). -/
theorem eq_microStep_of_busy {s t : State} (h : step s = .next t) (hb : s.busy = true)
    (hr : (nextEdge s).rst = false) : t = microStep (sampled s) := by
  obtain ⟨_, ⟨hr', _⟩ | ⟨_, _, rfl⟩ | ⟨_, _, hb', _⟩ | ⟨_, hb', _⟩⟩ := step_event_cases h
  · simp [hr] at hr'
  · rfl
  · simp [hb] at hb'
  · simp [hb] at hb'

/-- After the accepting edge and `j` edges without a reset the fold has performed `j` steps,
whatever the host presents at them. -/
theorem foldAt_of_run {s t : State} {w : Word} {j : Nat} (hacc : acceptedNext s = some (.fold w))
    (hj : j ≤ 32) (hrst : ∀ k, k < j → (edgeAhead s (k + 1)).rst = false)
    (hrun : run (j + 1) s = .next t) : FoldAt s.crc w s.responses j t := by
  induction j generalizing t with
  | zero =>
    obtain ⟨u, hu, hrest⟩ := step_of_run_succ hrun
    obtain ⟨hk, _⟩ := step_event_cases hu
    rw [step_of_accepted hk hacc] at hu
    cases hu
    cases hrest
    exact foldAt_startFold w (sampled s)
  | succ j ih =>
    obtain ⟨u, hu, hlast⟩ := step_of_run_snoc hrun
    have hfold := ih (by omega) (fun k hk => hrst k (by omega)) hu
    have hr : (nextEdge u).rst = false := by
      rw [nextEdge_of_run hu]
      exact hrst j (by omega)
    have hb : u.busy = true := hfold.busy.trans (decide_eq_true (by omega))
    rw [eq_microStep_of_busy hlast hb hr]
    exact foldAt_microStep (foldAt_sampled hfold) (by omega)

/-- Settles O24: `FoldAt` holds after the accept and every edge keeps it, one step further. -/
theorem everyFoldFollowsItsTrace : Obligations.EveryFoldFollowsItsTrace := by
  intro s t c w j hb hp hdecode hj hrst hrun
  have hacc := hdecode ▸ acceptedNext_of_presents hb hp
  have hfold := foldAt_of_run hacc hj hrst hrun
  refine ⟨hfold.crc, hfold.wreg, hfold.responses, fun hlt => ?_, ?_⟩
  · have hbusy : t.busy = true := hfold.busy.trans (decide_eq_true hlt)
    exact ⟨by simp [hfold.cnt, Nat.mod_eq_of_lt hlt], hbusy, fun e => by simp [cmdReady, hbusy]⟩
  · rintro rfl
    exact ⟨hfold.crc, hfold.cnt, hfold.busy, fun e hr => cmdReady_eq_true.mpr ⟨hfold.busy, hr⟩⟩

end Sys2Proof.Machine
end

section
/-! ### The bit level against the word level (`41_bit_step.md` R105 to R108) -/

namespace Sys2Proof.Machine

/-- An edge of a busy block without a reset performs one `STEP`, whatever is presented (R105
case 2). -/
theorem step_of_busy {s : State} (hk : keepsHandshake s) (hr : (nextEdge s).rst = false)
    (hb : s.busy = true) : step s = .next (microStep (sampled s)) := by
  simp only [keepsHandshake] at hk
  simp [step, clockEdge, hk, hr, hb, sampled, heldAfter, cmdReady]

/-- A busy block holds what is presented to it (R64). -/
theorem heldAfter_of_busy {s : State} (e : Edge) (hb : s.busy = true) :
    heldAfter s e = if e.cmdValid then some e.cmd else none := by
  simp [heldAfter, cmdReady, hb]

/-! #### A fold edge by edge -/

/-- The state `j` edges after the accept of `FOLD w` in `s`, the host driving `waiting` until the fold
is done and `rest` from then on. -/
def foldState (s : State) (w : Word) (waiting : Edge) (rest : List Edge) (j : Nat) : State :=
  { s with
    crc := foldSteps j s.crc w
    wreg := w
    cnt := BitVec.ofNat 5 j
    busy := decide (j < 32)
    inputs := List.replicate (32 - j) waiting ++ rest
    held := if 0 < j ∧ waiting.cmdValid = true then some waiting.cmd else none }

theorem foldState_inputs_of_lt (s : State) (w : Word) (waiting : Edge) (rest : List Edge) {j : Nat}
    (hj : j < 32) : (foldState s w waiting rest j).inputs =
      waiting :: (List.replicate (32 - (j + 1)) waiting ++ rest) := by
  have hleft : 32 - j = 32 - (j + 1) + 1 := by omega
  rw [foldState, hleft, List.replicate_succ, List.cons_append]

theorem keepsHandshake_foldState (s : State) (w : Word) (waiting : Edge) (rest : List Edge) {j : Nat}
    (hj : j < 32) : keepsHandshake (foldState s w waiting rest j) := by
  rw [keepsHandshake, nextEdge_of_cons (foldState_inputs_of_lt s w waiting rest hj)]
  by_cases hheld : 0 < j ∧ waiting.cmdValid = true
  · simp [foldState, hheld, handshakeBroken]
  · simp [foldState, hheld]

/-- The accept leads to the state with no step done (R107). -/
theorem step_accept_foldState {s : State} {w : Word} {waiting : Edge} {rest : List Edge}
    (hb : s.busy = false) (hheld : s.held = none)
    (hin : s.inputs = presentEdge (encode (.fold w)) :: (List.replicate 32 waiting ++ rest)) :
    step s = .next (foldState s w waiting rest 0) := by
  have hk : keepsHandshake s := by simp [keepsHandshake, hheld]
  rw [step_of_presents hb hk (nextEdge_of_cons hin), decode_encode, exec_fold]
  simp [foldState, startFold, popEdge, hin, State.setWreg, State.setCnt, State.setBusy,
    State.setInputs, State.setHeld]

/-- Every further edge of the fold performs one step more (R106, R108). -/
theorem step_foldState {s : State} {w : Word} {waiting : Edge} {rest : List Edge} {j : Nat}
    (hr : waiting.rst = false) (hj : j < 32) :
    step (foldState s w waiting rest j) = .next (foldState s w waiting rest (j + 1)) := by
  have hin := foldState_inputs_of_lt s w waiting rest hj
  have hnext := nextEdge_of_cons hin
  have hb : (foldState s w waiting rest j).busy = true := decide_eq_true hj
  have hcnt : (BitVec.ofNat 5 j).toNat = j := by simp [Nat.mod_eq_of_lt hj]
  have hrst : (nextEdge (foldState s w waiting rest j)).rst = false := by rw [hnext, hr]
  rw [step_of_busy (keepsHandshake_foldState s w waiting rest hj) hrst hb, sampled, hnext,
    heldAfter_of_busy _ hb, popEdge, hin]
  simp [foldState, microStep, State.setCrc, State.setCnt, State.setBusy, State.setInputs,
    State.setHeld, step1_foldSteps hcnt, cntAfterStep_ofNat hj, busyAfterStep_ofNat hj]

theorem run_foldState {s : State} {w : Word} {waiting : Edge} {rest : List Edge} {j : Nat}
    (hb : s.busy = false) (hheld : s.held = none) (hr : waiting.rst = false)
    (hin : s.inputs = presentEdge (encode (.fold w)) :: (List.replicate 32 waiting ++ rest))
    (hj : j ≤ 32) : run (j + 1) s = .next (foldState s w waiting rest j) := by
  induction j with
  | zero => exact run_snoc (run_zero s) (step_accept_foldState hb hheld hin)
  | succ j ih => exact run_snoc (ih (by omega)) (step_foldState hr (by omega))

/-- Settles O25: the accept leads to `foldState` with no step done, and each edge to the next one; the
32nd step leaves the block idle with `fold32`. -/
theorem foldRunsThirtyTwoSteps : Obligations.FoldRunsThirtyTwoSteps := by
  intro s w waiting rest hb hheld hr hin
  refine ⟨fun j hj => ?_, ?_⟩
  · rw [run_foldState hb hheld hr hin (by omega)]
    simp [foldState, show j < 32 by omega]
  · rw [run_foldState hb hheld hr hin le_rfl]
    simp [foldState, fold32]

/-! #### Edges and their word-level events -/

theorem settledCrc_of_idle {s : State} (hb : s.busy = false) : settledCrc s = s.crc := by
  rw [settledCrc, settle_of_idle hb]

/-- Sampling an edge does not touch the fold in progress. -/
theorem settledCrc_sampled (s : State) : settledCrc (sampled s) = settledCrc s := by
  rw [settledCrc, sampled, settle_setHeld, popEdge, settle_setInputs]
  rfl

theorem settledCrc_microStep {s : State} (hb : s.busy = true) :
    settledCrc (microStep s) = settledCrc s := by
  rw [settledCrc, settle_microStep hb, settledCrc]

/-- Whatever step a fold is at, it comes to the fold of its whole word (R108). -/
theorem settledCrc_of_foldAt {c w : Word} {rs : List Word} {n : Nat} {s : State}
    (h : FoldAt c w rs n s) (hn : n ≤ 32) : settledCrc s = fold32 c w := by
  induction hn using Nat.decreasingInduction generalizing s with
  | self => rw [settledCrc_of_idle h.busy, h.crc, fold32]
  | of_succ n hn ih =>
    have hb : s.busy = true := h.busy.trans (decide_eq_true hn)
    rw [← settledCrc_microStep hb, ih (foldAt_microStep h hn)]

theorem settledCrc_startFold (w : Word) (s : State) :
    settledCrc (startFold w s) = fold32 s.crc w :=
  settledCrc_of_foldAt (foldAt_startFold w s) (by omega)

/-- An accepted command does at the next word boundary what `eff` and `resp` say (R86). -/
theorem exec_refines {i : Instr} {s t : State} (hb : s.busy = false) (h : exec i s = .next t) :
    settledCrc t = eff i s.crc ∧ t.responses = s.responses ++ resp i s.crc := by
  obtain ⟨rfl, rfl⟩ | ⟨rfl, rfl⟩ | ⟨w, rfl, rfl⟩ | ⟨rfl, rfl⟩ := exec_cases h
  · exact ⟨settledCrc_of_idle hb, by simp [resp]⟩
  · exact ⟨settledCrc_of_idle hb, by simp [resp]⟩
  · exact ⟨settledCrc_startFold w s, by simp [resp]⟩
  · exact ⟨settledCrc_of_idle hb, rfl⟩

theorem eventsNext_of_reset {s : State} (hr : (nextEdge s).rst = true) : eventsNext s = [.reset] := by
  simp [eventsNext, hr]

theorem eventsNext_of_accepted {s : State} {i : Instr} (h : acceptedNext s = some i) :
    eventsNext s = [.accept i] := by
  obtain ⟨_, _, hr, _⟩ := acceptedNext_eq_some.mp h
  simp [eventsNext, hr, h]

/-- An edge that neither resets nor accepts is no event of the word level. -/
theorem eventsNext_eq_nil {s : State} (hr : (nextEdge s).rst = false)
    (h : s.busy = true ∨ (nextEdge s).cmdValid = false) : eventsNext s = [] := by
  have hnone : acceptedNext s = none := by
    obtain h | h := h <;> simp [acceptedNext, acceptedAt, cmdReady, h]
  simp [eventsNext, hr, hnone]

/-- Settles O32, by the event of the edge: a `STEP` and a quiet edge are no event and leave what the
fold in progress comes to. -/
theorem stepRefinesWordLevel : Obligations.StepRefinesWordLevel := by
  intro s t h
  obtain ⟨_, ⟨hr, rfl⟩ | ⟨hr, hb, rfl⟩ | ⟨i, hacc, hb, hexec⟩ | ⟨hr, _, hv, rfl⟩⟩ :=
    step_event_cases h
  · rw [eventsNext_of_reset hr]
    exact ⟨settledCrc_of_idle rfl, (List.append_nil _).symm⟩
  · rw [eventsNext_eq_nil hr (.inl hb), settledCrc_microStep (s := sampled s) hb, settledCrc_sampled]
    exact ⟨rfl, (List.append_nil _).symm⟩
  · obtain ⟨hcrc, hresp⟩ := exec_refines (s := sampled s) hb hexec
    rw [eventsNext_of_accepted hacc, settledCrc_of_idle hb, hcrc, hresp]
    simp [eventRun, eventEff, eventResp]
  · rw [eventsNext_eq_nil hr (.inr hv), settledCrc_sampled]
    exact ⟨rfl, (List.append_nil _).symm⟩

theorem eventRun_append (es fs : List Event) (c : Word) :
    eventRun (es ++ fs) c =
      ((eventRun fs (eventRun es c).1).1, (eventRun es c).2 ++ (eventRun fs (eventRun es c).1).2) := by
  induction es generalizing c with
  | nil => rfl
  | cons e es ih => simp only [List.cons_append, eventRun_cons, ih, List.append_assoc]

/-- A run refines the word level from every state, with the fold in progress counted as done. -/
theorem run_refines {n : Nat} {s t : State} (h : run n s = .next t) :
    settledCrc t = (eventRun (eventsOf n s) (settledCrc s)).1 ∧
      t.responses = s.responses ++ (eventRun (eventsOf n s) (settledCrc s)).2 := by
  induction n generalizing s with
  | zero =>
    cases h
    exact ⟨rfl, (List.append_nil _).symm⟩
  | succ n ih =>
    obtain ⟨u, hu, hrest⟩ := step_of_run_succ h
    obtain ⟨hcrc, hresp⟩ := stepRefinesWordLevel s u hu
    obtain ⟨hcrc', hresp'⟩ := ih hrest
    rw [eventsOf_succ hu, eventRun_append, hcrc', hresp', hcrc, hresp, List.append_assoc]
    exact ⟨rfl, rfl⟩

/-- Settles O33: in an idle state the register is its value at the word boundary. -/
theorem runRefinesWordLevel : Obligations.RunRefinesWordLevel := by
  intro s t n hs hrun
  obtain ⟨hcrc, hresp⟩ := run_refines hrun
  rw [settledCrc_of_idle hs] at hcrc hresp
  exact ⟨hresp, fun ht => settledCrc_of_idle ht ▸ hcrc⟩

/-! #### What the host cannot see of a fold (R34, R115) -/

/-- Two runs of one fold that differ in `crc` differ in nothing else until it is done; a reset on the
way makes them equal. -/
theorem run_setCrc_of_busy {n : Nat} {s t : State} (v : Word) (hb : s.busy = true)
    (hn : n ≤ 32 - s.cnt.toNat) (h : run n s = .next t) :
    ∃ x, run n (s.setCrc v) = .next (t.setCrc x) := by
  induction n generalizing s v with
  | zero =>
    cases h
    exact ⟨v, rfl⟩
  | succ n ih =>
    obtain ⟨u, hu, hrest⟩ := step_of_run_succ h
    obtain ⟨hk, ⟨hr, rfl⟩ | ⟨hr, _, rfl⟩ | ⟨_, _, hb', _⟩ | ⟨_, hb', _⟩⟩ := step_event_cases hu
    · exact ⟨t.crc, (run_succ (step_of_reset (s := s.setCrc v) hk hr)).trans hrest⟩
    · rw [run_succ (step_of_busy (s := s.setCrc v) hk hr hb)]
      by_cases hlast : s.cnt = 31#5
      · obtain rfl : n = 0 := by simpa [hlast] using hn
        cases hrest
        exact ⟨_, rfl⟩
      · refine ih (s := microStep (sampled s)) _ (busyAfterStep_of_ne hlast) ?_ hrest
        rw [microStep_cnt, sampled_cnt, toNat_cntAfterStep hlast]
        omega
    · simp [hb] at hb'
    · simp [hb] at hb'

/-- Settles O40: a busy block is not ready, hence answers nothing, and its steps never read `crc` for
anything but `crc`. -/
theorem intermediateCrcIsUnobservable : Obligations.IntermediateCrcIsUnobservable := by
  refine ⟨fun s e hb => ?_, fun s t v n hb hn hrun => run_setCrc_of_busy v hb hn hrun⟩
  have hready : cmdReady s e = false := by simp [cmdReady, hb]
  have hvalid : rspValid s e = false := by simp [rspValid, hready]
  exact ⟨hready, hvalid, by simp [rspData, hvalid]⟩

/-! #### The edge rule, case by case (R105, R106) -/

/-- Settles O18: the edge of a busy block is one `STEP`, and the counter tells the last one. -/
theorem stepMicroOperation : Obligations.StepMicroOperation := by
  intro s hb hr hk
  refine ⟨_, step_of_busy hk hr hb, rfl, fun hlast => ?_, fun hlast => ?_, rfl, rfl, rfl⟩
  · simp [hlast]
  · exact ⟨toNat_cntAfterStep hlast, busyAfterStep_of_ne hlast⟩

/-- Settles O13: an idle block accepts op 2 as the `FOLD` of its data field. -/
theorem foldAcceptStartsTheFold : Obligations.FoldAcceptStartsTheFold := by
  refine ⟨exec_fold, fun s c hb hk hp hop => ⟨?_, ?_⟩⟩
  · rw [step_of_presents hb hk hp, decode_of_op2 hop, dataField_eq_setWidth]
    rfl
  · simp [rspValid_of_presents hb hp, hop]

/-- A command presented to a block in reset or busy is held, and no other (R64). -/
theorem sampled_eq (s : State) : sampled s = { s with
    inputs := s.inputs.tail
    held := if (nextEdge s).cmdValid && ((nextEdge s).rst || s.busy) then some (nextEdge s).cmd
      else none } := by
  simp [sampled, popEdge, State.setInputs, State.setHeld, heldAfter, cmdReady, Bool.or_comm]

theorem busyAfterStep_eq_ite (k : BitVec 5) :
    busyAfterStep k = if k = 31#5 then false else true := by
  by_cases h : k = 31#5 <;> simp [busyAfterStep, h]

/-- Settles O19: each case is the event of its edge on the sampled state. -/
theorem clockEdgeRule : Obligations.ClockEdgeRule := by
  intro s hk e after
  have hafter : after = sampled s := (sampled_eq s).symm
  clear_value after
  subst hafter
  refine ⟨fun hr => step_of_reset hk hr, fun hr hb => ?_, fun hr hb hv => ?_,
    fun hr hb hv => step_of_quiet hk hr hb hv⟩
  · rw [step_of_busy hk hr hb, ← busyAfterStep_eq_ite]
    rfl
  · have hstep := step_of_accepted hk (acceptedNext_eq_some.mpr ⟨hv, hb, hr, rfl⟩)
    refine ⟨fun hop => ?_, fun hop => ?_, fun hop => ?_, fun hop => ?_⟩
    · rw [hstep, decode_of_op0 hop, exec_nop]
    · rw [hstep, decode_of_op1 hop, exec_init]
      rfl
    · rw [hstep, decode_of_op2 hop, dataField_eq_setWidth, exec_fold]
      rfl
    · rw [hstep, decode_of_op3 hop, exec_read]
      rfl

end Sys2Proof.Machine
end

section
/-! ### The algebra of the fold (`41_bit_step.md` R100, R110 to R113) -/

namespace Sys2Proof.Machine

/-! #### One step, bit by bit and linear -/

theorem getLsbD_poly {j : Nat} (hj : j < 32) :
    Config.poly.getLsbD j = decide (j ∈ [0, 1, 2, 4, 5, 7, 8, 10, 11, 12, 16, 22, 23, 26]) := by
  revert j
  decide

theorem getLsbD_shiftLeft_succ (c : Word) {j : Nat} (hj : j + 1 < 32) :
    (c <<< 1).getLsbD (j + 1) = c.getLsbD j := by
  rw [BitVec.getLsbD_shiftLeft, decide_eq_true hj]
  simp

/-- A shift moves bit `j - 1` to bit `j` and brings in 0 (R103). -/
theorem getLsbD_shiftLeft_one (c : Word) {j : Nat} (hj : j < 32) :
    (c <<< 1).getLsbD j = (decide (0 < j) && c.getLsbD (j - 1)) := by
  cases j with
  | zero => simp
  | succ j =>
    rw [getLsbD_shiftLeft_succ c hj]
    simp

/-- The feedback bit enters at the set bits of `POLY` (R100). -/
theorem getLsbD_step1 (c : Word) (b : Bool) {j : Nat} (hj : j < 32) :
    (step1 c b).getLsbD j =
      ((decide (0 < j) && c.getLsbD (j - 1)) ^^ (feedbackBit c b && Config.poly.getLsbD j)) := by
  rw [step1, BitVec.getLsbD_xor, getLsbD_shiftLeft_one c hj]
  cases feedbackBit c b <;> simp

/-- Settles O17: `getLsbD_step1` with the set bits of `POLY` written out. -/
theorem nextCrcBitByBit : Obligations.NextCrcBitByBit := by
  intro c w k j hj
  rw [getLsbD_step1 c _ hj, getLsbD_poly hj]
  rfl

theorem feedbackBit_xor (c1 c2 : Word) (b1 b2 : Bool) :
    feedbackBit (c1 ^^^ c2) (b1 ^^ b2) = (feedbackBit c1 b1 ^^ feedbackBit c2 b2) := by
  simp only [feedbackBit, BitVec.getLsbD_xor, Bool.xor_assoc, Bool.xor_left_comm]

theorem step1_xor (c1 c2 : Word) (b1 b2 : Bool) :
    step1 (c1 ^^^ c2) (b1 ^^ b2) = step1 c1 b1 ^^^ step1 c2 b2 := by
  refine BitVec.eq_of_getLsbD_eq fun j hj => ?_
  simp only [BitVec.getLsbD_xor, getLsbD_step1 _ _ hj, feedbackBit_xor, Bool.and_xor_distrib_left,
    Bool.and_xor_distrib_right, Bool.xor_assoc, Bool.xor_left_comm]

theorem foldSteps_xor (n : Nat) (c1 c2 w1 w2 : Word) :
    foldSteps n (c1 ^^^ c2) (w1 ^^^ w2) = foldSteps n c1 w1 ^^^ foldSteps n c2 w2 := by
  induction n with
  | zero => rfl
  | succ n ih => simp only [foldSteps_succ, ih, BitVec.getLsbD_xor, step1_xor]

theorem fold32_zero_zero : fold32 0#32 0#32 = 0#32 := by decide

/-- Settles O43: one step is linear, hence every number of them. -/
theorem foldIsLinearOverGF2 : Obligations.FoldIsLinearOverGF2 :=
  ⟨step1_xor, foldSteps_xor 32, by decide, fold32_zero_zero⟩

/-! #### The word shifted in and the word XORed in -/

/-- After `n` shifts to the left the bit that step `n` consumes is the highest (R100, R113). -/
theorem getLsbD_shiftLeft_msb (w : Word) {n : Nat} (hn : n < 32) :
    (w <<< n).getLsbD 31 = w.getLsbD (31 - n) := by
  have hlow : ¬ 31 < n := by omega
  simp only [BitVec.getLsbD_shiftLeft, Nat.reduceLT, hlow, decide_true, decide_false, Bool.not_false,
    Bool.true_and]

/-- An input bit equal to the highest bit of the register cancels it: the step only shifts. -/
theorem step1_self_msb (c : Word) : step1 c (c.getLsbD 31) = c <<< 1 := by
  simp [step1, feedbackBit]

/-- Feeding the bits of `w` one by one is XORing `w` in first, but for the bits still to come. -/
theorem foldSteps_eq_xor (c w : Word) {n : Nat} (hn : n ≤ 32) :
    foldSteps n c w = foldSteps n (c ^^^ w) 0#32 ^^^ w <<< n := by
  induction n with
  | zero => simp
  | succ n ih =>
    have hbit := getLsbD_shiftLeft_msb w (show n < 32 by omega)
    calc foldSteps (n + 1) c w
        = step1 (foldSteps n (c ^^^ w) 0#32 ^^^ w <<< n) (false ^^ (w <<< n).getLsbD 31) := by
          rw [foldSteps_succ, ih (by omega), hbit, Bool.false_xor]
      _ = foldSteps (n + 1) (c ^^^ w) 0#32 ^^^ w <<< (n + 1) := by
          rw [step1_xor, step1_self_msb, foldSteps_succ, BitVec.getLsbD_zero, BitVec.shiftLeft_add]

/-- The word XOR law (R110). -/
theorem fold32_eq_xor (c w : Word) : fold32 c w = fold32 (c ^^^ w) 0#32 := by
  simpa [fold32] using foldSteps_eq_xor c w le_rfl

theorem fold32_comm (c w : Word) : fold32 c w = fold32 w c := by
  rw [fold32_eq_xor, BitVec.xor_comm, ← fold32_eq_xor]

/-- Settles O42: all three from the word XOR law. -/
theorem foldDependsOnTheXorOnly : Obligations.FoldDependsOnTheXorOnly := by
  refine ⟨fold32_eq_xor, fold32_comm, fun w => ?_⟩
  have hseed : 0xFFFFFFFF#32 ^^^ w = ~~~w := BitVec.allOnes_xor
  rw [fold32_eq_xor, hseed, fold32_comm]

/-- The shift register has shifted out the bits consumed, so that the next one is its highest
(R113). -/
theorem shiftSteps_eq (c w : Word) {n : Nat} (hn : n ≤ 32) :
    shiftSteps n c w = (foldSteps n c w, w <<< n) := by
  induction n with
  | zero => simp [shiftSteps]
  | succ n ih =>
    rw [shiftSteps, ih (by omega), shiftStep, getLsbD_shiftLeft_msb w (by omega), ← foldSteps_succ,
      ← BitVec.shiftLeft_add]

/-- Settles O46: after 32 steps the whole word has been shifted out. -/
theorem shiftRegisterDatapathAgrees : Obligations.ShiftRegisterDatapathAgrees := by
  refine ⟨fun n c w hn => by simp [shiftSteps_eq c w hn], fun c w => ?_⟩
  rw [shiftSteps_eq c w le_rfl, fold32, BitVec.shiftLeft_eq_zero le_rfl]

/-! #### Inverses -/

/-- `POLY` has bit 0, so a step leaves its feedback bit there (R112). -/
theorem getLsbD_step1_zero (c : Word) (b : Bool) : (step1 c b).getLsbD 0 = feedbackBit c b := by
  rw [getLsbD_step1 c b (by decide), getLsbD_poly (by decide)]
  simp

/-- A shifted word with the lost bit back in front. -/
theorem append_extractLsb'_shiftLeft (c : Word) :
    BitVec.ofBool (c.getLsbD 31) ++ (c <<< 1).extractLsb' 1 31 = c := by
  refine BitVec.eq_of_getLsbD_eq fun j hj => ?_
  rw [BitVec.getLsbD_append]
  by_cases hlast : j = 31
  · simp [hlast]
  · simp only [show j < 31 by omega, if_true, BitVec.getLsbD_extractLsb', decide_true, Bool.true_and]
    rw [Nat.add_comm, getLsbD_shiftLeft_succ c (by omega)]

theorem step1Inverse_step1 (b : Bool) :
    Function.LeftInverse (fun n => step1Inverse n b) (fun c => step1 c b) := by
  intro c
  have hbit : (feedbackBit c b ^^ b) = c.getLsbD 31 := by simp [feedbackBit]
  simp only [step1Inverse, getLsbD_step1_zero, hbit]
  rw [step1, BitVec.xor_assoc, BitVec.xor_self, BitVec.xor_zero, append_extractLsb'_shiftLeft]

theorem step1_injective (b : Bool) : Function.Injective (fun c => step1 c b) :=
  (step1Inverse_step1 b).injective

/-- Settles O44: the left inverse on a finite type is a right inverse too. -/
theorem stepIsInvertible : Obligations.StepIsInvertible := by
  intro v b
  have hsurj := Finite.injective_iff_surjective.mp (step1_injective b)
  exact ⟨step1Inverse_step1 b v, (step1Inverse_step1 b).rightInverse_of_surjective hsurj v⟩

theorem foldSteps_injective (n : Nat) (w : Word) : Function.Injective (fun c => foldSteps n c w) := by
  induction n with
  | zero => exact fun _ _ h => h
  | succ n ih => exact (step1_injective _).comp ih

theorem fold32_injective (w : Word) : Function.Injective (fun c => fold32 c w) :=
  foldSteps_injective 32 w

theorem fold32_eq_zero_iff (c w : Word) : fold32 c w = 0#32 ↔ w = c := by
  calc fold32 c w = 0#32
      ↔ fold32 (c ^^^ w) 0#32 = fold32 0#32 0#32 := by rw [fold32_eq_xor, fold32_zero_zero]
    _ ↔ w = c := by rw [(fold32_injective 0#32).eq_iff, BitVec.xor_eq_zero_iff, eq_comm]

/-- Settles O45: a fold is injective in the register, hence bijective on the finite type of words, and
symmetric. -/
theorem foldIsBijectiveInEachArgument : Obligations.FoldIsBijectiveInEachArgument := by
  have hbij (w : Word) : Function.Bijective (fun c => fold32 c w) :=
    Finite.injective_iff_bijective.mp (fold32_injective w)
  refine ⟨hbij, fun c => ?_, fold32_eq_zero_iff⟩
  simp only [fold32_comm c]
  exact hbij c

end Sys2Proof.Machine
end

section
/-! ### The fold as a polynomial remainder (`41_bit_step.md` R111) -/

namespace Sys2Proof

open Polynomial Machine

theorem wordPoly_eq_sum_range (v : Word) :
    wordPoly v = ∑ j ∈ Finset.range 32, if v.getLsbD j then X ^ j else 0 := by
  rw [wordPoly, Finset.sum_range]

/-- XOR of words is the sum of their polynomials over GF(2). -/
theorem wordPoly_xor (a b : Word) : wordPoly (a ^^^ b) = wordPoly a + wordPoly b := by
  simp only [wordPoly_eq_sum_range, ← Finset.sum_add_distrib, BitVec.getLsbD_xor]
  refine Finset.sum_congr rfl fun j _ => ?_
  cases a.getLsbD j <;> cases b.getLsbD j <;> simp [CharTwo.add_self_eq_zero]

/-- Multiplication by `x` shifts, and carries bit 31 to `x^32`. -/
theorem wordPoly_mul_X (c : Word) :
    wordPoly c * X = wordPoly (c <<< 1) + if c.getLsbD 31 then X ^ 32 else 0 := by
  have hbit : ∀ j ∈ Finset.range 31, (c <<< 1).getLsbD (j + 1) = c.getLsbD j := fun j hj =>
    getLsbD_shiftLeft_succ c (Nat.succ_lt_succ (Finset.mem_range.mp hj))
  have hshift : wordPoly (c <<< 1) =
      ∑ j ∈ Finset.range 31, (if c.getLsbD j then X ^ j else 0) * X := by
    rw [wordPoly_eq_sum_range, Finset.sum_range_succ']
    simp +contextual [hbit, ite_mul, pow_succ]
  rw [hshift, wordPoly_eq_sum_range, Finset.sum_range_succ, add_mul, Finset.sum_mul]
  simp [ite_mul, pow_succ]

/-- A step with input bit 0 subtracts the generator, which over GF(2) is adding it, when the product
by `x` reaches its degree. -/
theorem wordPoly_step1_false (c : Word) :
    wordPoly (step1 c false) = wordPoly c * X + if c.getLsbD 31 then generator else 0 := by
  rw [wordPoly_mul_X, step1, feedbackBit, Bool.xor_false, wordPoly_xor]
  cases c.getLsbD 31
  · simp [wordPoly]
  · simp [generator, add_assoc, CharTwo.add_cancel_left]

/-- A word congruent to a polynomial modulo the generator is its remainder. -/
theorem wordPoly_eq_modByMonic {v : Word} {p : (ZMod 2)[X]} (h : generator ∣ wordPoly v - p) :
    wordPoly v = p %ₘ generator := by
  have hdeg : (wordPoly v).degree < generator.degree := by
    have hpoly : (wordPoly Config.poly).degree < (X ^ 32 : (ZMod 2)[X]).degree := by
      simpa using degree_wordPoly_lt Config.poly
    rw [generator, degree_add_eq_left_of_degree_lt hpoly, degree_X_pow]
    exact degree_wordPoly_lt v
  rw [← modByMonic_eq_of_dvd_sub generator_monic h,
    (modByMonic_eq_self_iff generator_monic).mpr hdeg]

theorem wordPoly_step1_eq_modByMonic (c : Word) :
    wordPoly (step1 c false) = (wordPoly c * X) %ₘ generator := by
  refine wordPoly_eq_modByMonic ?_
  rw [wordPoly_step1_false]
  cases c.getLsbD 31 <;> simp

theorem wordPoly_foldSteps_zero (n : Nat) (c : Word) :
    wordPoly (foldSteps n c 0#32) = (wordPoly c * X ^ n) %ₘ generator := by
  induction n with
  | zero => exact wordPoly_eq_modByMonic (by simp)
  | succ n ih =>
    rw [foldSteps_succ, BitVec.getLsbD_zero, wordPoly_step1_eq_modByMonic, ih, pow_succ, ← mul_assoc]
    refine modByMonic_eq_of_dvd_sub generator_monic ?_
    rw [← sub_mul]
    exact (dvd_modByMonic_sub _ _).mul_right X

/-- Settles O47: a fold is that of the XOR with the zero word (R110), 32 multiplications by `x`. -/
theorem foldIsPolynomialRemainder : Obligations.FoldIsPolynomialRemainder := by
  refine ⟨wordPoly_step1_eq_modByMonic, fun c w => ?_⟩
  rw [fold32_eq_xor, fold32, wordPoly_foldSteps_zero, wordPoly_xor]

end Sys2Proof
end

section
/-! ### The commands of a message (`42_compute_sequence.md` R122, R123) -/

namespace Sys2Proof.Machine

/-! #### `FOLDB` (R122) -/

theorem foldb_one (b0 : Byte) : foldb [b0] = some (.fold (pack b0 0#8 0#8 0#8)) := rfl

theorem foldb_two (b0 b1 : Byte) : foldb [b0, b1] = some (.fold (pack b0 b1 0#8 0#8)) := rfl

theorem foldb_three (b0 b1 b2 : Byte) :
    foldb [b0, b1, b2] = some (.fold (pack b0 b1 b2 0#8)) := rfl

theorem foldb_four (b0 b1 b2 b3 : Byte) :
    foldb [b0, b1, b2, b3] = some (.fold (pack b0 b1 b2 b3)) := rfl

theorem foldbOperandsOk_eq_true {chunk : List Byte} :
    foldbOperandsOk chunk = true ↔ 1 ≤ chunk.length ∧ chunk.length ≤ 4 := by
  simp [foldbOperandsOk, Config.chunkBytes]

/-- Settles O51: one equation per length, and the check on the operand list for every other. -/
theorem foldbPadsOnTheRight : Obligations.FoldbPadsOnTheRight := by
  refine ⟨fun b0 b1 b2 b3 => ⟨foldb_one b0, foldb_two b0 b1, foldb_three b0 b1 b2,
    foldb_four b0 b1 b2 b3⟩, fun chunk hlen => if_neg ?_⟩
  rw [foldbOperandsOk_eq_true]
  omega

/-! #### The `FOLDB`s of a buffer (R42, R123) -/

/-- A buffer of at most four bytes is its own chunk 0. -/
theorem foldChunk_zero_of_short {d : List Byte} (h : d.length ≤ 4) : foldChunk d 0 = foldb d := by
  have hchunk : chunkAt d 0 = some d := by simp [chunkAt, memRead, Config.chunkBytes, h]
  rw [foldChunk, hchunk, Option.bind_some]

/-- Up to the chunk boundary there is one chunk. -/
theorem mapM_foldChunk_of_short {d : List Byte} (hpos : 1 ≤ d.length) (h : d.length ≤ 4) :
    (List.range (wordCount d)).mapM (foldChunk d) = (foldb d).map ([·]) := by
  have hone : wordCount d = 1 := by
    rw [wordCount, Config.chunkBytes]
    omega
  rw [hone, List.range_one, List.mapM_cons, foldChunk_zero_of_short h]
  cases foldb d <;> rfl

theorem foldChunk_of_chunk_zero (b0 b1 b2 b3 : Byte) (rest : List Byte) :
    foldChunk (b0 :: b1 :: b2 :: b3 :: rest) 0 = some (.fold (pack b0 b1 b2 b3)) := by
  have hchunk : chunkAt (b0 :: b1 :: b2 :: b3 :: rest) 0 = some [b0, b1, b2, b3] := by
    simp [chunkAt, memRead, Config.chunkBytes]
  rw [foldChunk, hchunk, Option.bind_some, foldb_four]

theorem foldChunk_of_chunk_succ (b0 b1 b2 b3 : Byte) (rest : List Byte) (k : Nat) :
    foldChunk (b0 :: b1 :: b2 :: b3 :: rest) (k + 1) = foldChunk rest k := by
  have hoff : 4 * (k + 1) = [b0, b1, b2, b3].length + 4 * k := by simp; omega
  have hlen : rest.length + 1 + 1 + 1 + 1 - 4 * (k + 1) = rest.length - 4 * k := by omega
  have hread := memRead_append [b0, b1, b2, b3] rest (4 * k) (min 4 (rest.length - 4 * k))
  rw [← hoff] at hread
  simp only [foldChunk, chunkAt, Config.chunkBytes, List.length_cons, hlen]
  exact congrArg (Option.bind · foldb) hread

/-- The `FOLDB`s of the chunks are the `FOLD`s of the word stream. -/
theorem mapM_foldChunk (d : List Byte) :
    (List.range (wordCount d)).mapM (foldChunk d) = some ((wordsOf d).map Instr.fold) := by
  induction d using wordsOf.induct with
  | case1 => rfl
  | case2 b0 => rw [mapM_foldChunk_of_short (by simp) (by simp), foldb_one]; rfl
  | case3 b0 b1 => rw [mapM_foldChunk_of_short (by simp) (by simp), foldb_two]; rfl
  | case4 b0 b1 b2 => rw [mapM_foldChunk_of_short (by simp) (by simp), foldb_three]; rfl
  | case5 b0 b1 b2 b3 rest ih =>
    have hrest : ((List.range (wordCount rest)).map (· + 1)).mapM
        (foldChunk (b0 :: b1 :: b2 :: b3 :: rest)) = some ((wordsOf rest).map Instr.fold) := by
      rw [List.mapM_map, ← ih]
      congr 1
      funext k
      exact foldChunk_of_chunk_succ b0 b1 b2 b3 rest k
    rw [wordCount_chunk, List.range_succ_eq_map, List.mapM_cons, foldChunk_of_chunk_zero, hrest]
    rfl

/-- `COMPUTE` reads the message only through its word stream (R46, R123). -/
theorem compute_eq (d : List Byte) :
    compute d = some (.init :: (wordsOf d).map Instr.fold ++ [.read]) := by
  rw [compute, mapM_foldChunk]
  rfl

/-- Settles O52: at word level `INIT` forgets `crc`, the `FOLD`s fold the word stream and the `READ`
answers what they leave. -/
theorem computeExpandsToItsCommands : Obligations.ComputeExpandsToItsCommands := by
  intro d
  refine ⟨compute_eq d, fun is his => ?_⟩
  obtain rfl := Option.some.inj ((compute_eq d).symm.trans his)
  obtain ⟨hlen, _⟩ := wordStreamOfTheBuffer d
  refine ⟨by simp [hlen], fun c => ?_⟩
  rw [List.cons_append, wordRun_init, wordRun_append, wordRun_map_fold]
  rfl

/-- Settles O54: no words, so only the `INIT` and the `READ`. -/
theorem emptyMessageGivesTheSeed : Obligations.EmptyMessageGivesTheSeed :=
  ⟨compute_eq [], rfl, fun c => by rw [wordRun_init, wordRun_read]; rfl⟩

end Sys2Proof.Machine
end

section
/-! ### `COMPUTE` on the block (`42_compute_sequence.md` R123, `70_reset_and_hazards.md` R172) -/

namespace Sys2Proof.Machine

/-! #### The eager host -/

/-- Waiting for the block is holding the next command (R64). -/
theorem eagerEdges_wait (wait : Nat) (i : Instr) (is : List Instr) :
    eagerEdges wait (i :: is) =
      List.replicate wait (presentEdge (encode i)) ++ eagerEdges 0 (i :: is) := by
  simp only [eagerEdges, List.replicate_add, List.append_assoc, Nat.zero_add]

/-- The 32 edges of a fold hold the command after it (R172). -/
theorem eagerEdges_fold (w : Word) (i : Instr) (is : List Instr) :
    eagerEdges 0 (.fold w :: i :: is) =
      presentEdge (encode (.fold w)) ::
        (List.replicate 32 (presentEdge (encode i)) ++ eagerEdges 0 (i :: is)) := by
  rw [← eagerEdges_wait]
  rfl

/-! #### A command held until now -/

/-- Where a held command is presented again and accepted, the block does not tell that it was held
(R64). -/
theorem step_setHeld_none {s : State} {c : Cmd34} (hb : s.busy = false) (hk : keepsHandshake s)
    (hp : presents s c) : step (s.setHeld none) = step s := by
  rw [step_of_presents hb hk hp]
  exact step_of_presents (s := s.setHeld none) hb rfl hp

theorem run_succ_setHeld_none (n : Nat) {s : State} {c : Cmd34} (hb : s.busy = false)
    (hk : keepsHandshake s) (hp : presents s c) :
    run (n + 1) (s.setHeld none) = run (n + 1) s := by
  rw [run, run, step_setHeld_none hb hk hp]

/-! #### The `FOLD`s and the `READ` -/

/-- The state `s` after the `FOLD`s of `ws` and a `READ`, the host driving `rest` from then on. -/
def afterFoldsAndRead (ws : List Word) (rest : List Edge) (s : State) : State :=
  { s with
    crc := foldWords s.crc ws
    wreg := ws.getLastD s.wreg
    inputs := rest
    held := none
    responses := s.responses ++ [foldWords s.crc ws] }

/-- A fold that is done, as far as the commands after it can tell. -/
theorem afterFoldsAndRead_foldState (w : Word) (ws : List Word) (waiting : Edge)
    (rest' rest : List Edge) {s : State} (hb : s.busy = false) (hcnt : s.cnt = 0#5) :
    afterFoldsAndRead ws rest (foldState s w waiting rest' 32) =
      afterFoldsAndRead (w :: ws) rest s := by
  simp only [afterFoldsAndRead, foldState, hb, hcnt, List.getLastD_cons, foldWords_cons, fold32]
  rfl

/-- `FOLD` of one word takes an idle block, which may hold that `FOLD`, to an idle block that holds
the next command. -/
theorem run_fold {s : State} {w : Word} {i : Instr} {rest : List Edge} (hb : s.busy = false)
    (hk : keepsHandshake s)
    (hin : s.inputs = presentEdge (encode (.fold w)) ::
      (List.replicate 32 (presentEdge (encode i)) ++ rest)) :
    run 33 s = .next (foldState s w (presentEdge (encode i)) rest 32) := by
  rw [← run_succ_setHeld_none 32 hb hk (nextEdge_of_cons hin)]
  exact run_foldState (s := s.setHeld none) hb rfl rfl hin le_rfl

/-- From an idle block each `FOLD` takes 33 edges and the `READ` one (R172). -/
theorem run_folds_read (ws : List Word) (rest : List Edge) {s : State} (hb : s.busy = false)
    (hcnt : s.cnt = 0#5) (hk : keepsHandshake s)
    (hin : s.inputs = eagerEdges 0 (ws.map Instr.fold ++ [.read]) ++ rest) :
    run (33 * ws.length + 1) s = .next (afterFoldsAndRead ws rest s) := by
  induction ws generalizing s with
  | nil =>
    have hin : s.inputs = presentEdge (encode .read) :: rest := hin
    rw [List.length_nil, Nat.mul_zero, run_succ (t := afterFoldsAndRead [] rest s) _, run_zero]
    rw [step_of_presents hb hk (nextEdge_of_cons hin), decode_encode, exec_read, popEdge, hin]
    rfl
  | cons w ws ih =>
    obtain ⟨i, is, his⟩ : ∃ i is, ws.map Instr.fold ++ [.read] = i :: is :=
      List.exists_cons_of_ne_nil (by simp)
    rw [List.map_cons, List.cons_append, his, eagerEdges_fold, List.cons_append,
      List.append_assoc] at hin
    have hidle : (foldState s w (presentEdge (encode i)) (eagerEdges 0 (i :: is) ++ rest) 32).busy
        = false := rfl
    have hkeep : keepsHandshake
        (foldState s w (presentEdge (encode i)) (eagerEdges 0 (i :: is) ++ rest) 32) :=
      handshakeBroken_some_self _ _ rfl rfl
    rw [List.length_cons, show 33 * (ws.length + 1) + 1 = 33 + (33 * ws.length + 1) by omega,
      run_add (run_fold hb hk hin), ih hidle rfl hkeep (by rw [his]; rfl),
      afterFoldsAndRead_foldState w ws _ _ rest hb hcnt]

/-- Settles O53: one edge for the `INIT`, then the `FOLD`s of the word stream and the `READ` from
the seed. -/
theorem computeOnTheBlockDeliversTheChecksum :
    Obligations.ComputeOnTheBlockDeliversTheChecksum := by
  intro s d is rest ⟨hcnt, _⟩ hb hheld his hin
  obtain rfl := Option.some.inj ((compute_eq d).symm.trans his)
  obtain ⟨hlen, _⟩ := wordStreamOfTheBuffer d
  have hk : keepsHandshake s := by simp [keepsHandshake, hheld]
  have hin : s.inputs = presentEdge (encode .init) ::
      (eagerEdges 0 ((wordsOf d).map Instr.fold ++ [.read]) ++ rest) := hin
  have hinit := step_of_presents hb hk (nextEdge_of_cons hin)
  rw [decode_encode, exec_init] at hinit
  rw [← hlen, Nat.add_comm, run_succ hinit]
  exact ⟨_, run_folds_read (wordsOf d) rest hb (hcnt hb) rfl (by simp [hin]), rfl, rfl, hb,
    hcnt hb, rfl, rfl, rfl⟩

end Sys2Proof.Machine
end

section
/-! ### Checksums of messages (`42_compute_sequence.md` R125 to R128) -/

namespace Sys2Proof.Machine

/-! #### Values (R125, R126, R127, R129) -/

/-- A message of one word folds that word into the seed (R123). -/
theorem checksum_of_wordsOf {d : List Byte} {w v : Word} (hw : wordsOf d = [w])
    (hv : fold32 0xFFFFFFFF#32 w = v) : checksum d = v := by
  rw [checksum, hw, ← hv]
  rfl

theorem checksum_zeros : checksum [0x00#8, 0x00#8, 0x00#8, 0x00#8] = 0xC704DD7B#32 :=
  checksum_of_wordsOf (w := 0x00000000#32) (by decide) (by decide)

theorem checksum_deadbeef : checksum [0xDE#8, 0xAD#8, 0xBE#8, 0xEF#8] = 0xEDE062E3#32 :=
  checksum_of_wordsOf (w := 0xEFBEADDE#32) (by decide) (by decide)

theorem checksum_one : checksum [0x01#8] = 0xC3C5C0CC#32 :=
  checksum_of_wordsOf (w := 0x00000001#32) (by decide) (by decide)

theorem checksum_ones : checksum [0xFF#8, 0xFF#8, 0xFF#8, 0xFF#8] = 0x00000000#32 :=
  checksum_of_wordsOf (w := 0xFFFFFFFF#32) (by decide) (by decide)

theorem checksum_eq_seed : checksum [0xB6#8, 0x9B#8, 0x50#8, 0xB9#8] = 0xFFFFFFFF#32 :=
  checksum_of_wordsOf (w := 0xB9509BB6#32) (by decide) (by decide)

theorem checksum_eq_fixed : checksum [0x62#8, 0x3A#8, 0x0E#8, 0xD1#8] = 0x2EF1C59C#32 :=
  checksum_of_wordsOf (w := 0xD10E3A62#32) (by decide) (by decide)

/-- Settles O59: each message is one word, folded once into the seed. -/
theorem listedChecksums : Obligations.ListedChecksums :=
  ⟨checksum_zeros, checksum_deadbeef, checksum_one, checksum_ones, checksum_eq_seed,
    checksum_eq_fixed⟩

/-! #### Padding (R125) -/

theorem length_chunk_mod (b0 b1 b2 b3 : Byte) (rest : List Byte) :
    (b0 :: b1 :: b2 :: b3 :: rest).length % 4 = rest.length % 4 :=
  Nat.add_mod_right rest.length 4

/-- Explicit zeros up to the next multiple of 4 are the padding (R43). -/
theorem wordsOf_append_zeros {d : List Byte} (h : d.length % 4 ≠ 0) :
    wordsOf (d ++ List.replicate (4 - d.length % 4) 0#8) = wordsOf d := by
  induction d using wordsOf.induct with
  | case1 => simp at h
  | case2 b0 => rfl
  | case3 b0 b1 => rfl
  | case4 b0 b1 b2 => rfl
  | case5 b0 b1 b2 b3 rest ih =>
    rw [length_chunk_mod] at h ⊢
    simp [ih h]

theorem compute_congr {d e : List Byte} (h : wordsOf d = wordsOf e) : compute d = compute e := by
  rw [compute_eq, compute_eq, h]

theorem checksum_congr {d e : List Byte} (h : wordsOf d = wordsOf e) :
    checksum d = checksum e := by
  rw [checksum, checksum, h]

theorem fold32_checksum_one_zero : fold32 0xC3C5C0CC#32 0#32 ≠ 0xC3C5C0CC#32 := by decide

/-- Settles O55: the word streams agree, and `COMPUTE` reads nothing else. The zeros that cross a
chunk boundary fold the word 0 into the checksum of `01`, which changes it. -/
theorem paddingIsExplicitZeros : Obligations.PaddingIsExplicitZeros := by
  refine ⟨fun d h => ⟨wordsOf_append_zeros h, compute_congr (wordsOf_append_zeros h),
    checksum_congr (wordsOf_append_zeros h)⟩, compute_eq _, compute_eq _, checksum_one, rfl, ?_⟩
  have hcross : checksum [0x01#8, 0#8, 0#8, 0#8, 0#8] = fold32 (checksum [0x01#8]) 0#32 := rfl
  rw [hcross, checksum_one]
  exact fold32_checksum_one_zero

/-! #### The last word (R128) -/

theorem pack_eq_iff {a0 a1 a2 a3 b0 b1 b2 b3 : Byte} :
    pack a0 a1 a2 a3 = pack b0 b1 b2 b3 ↔ a0 = b0 ∧ a1 = b1 ∧ a2 = b2 ∧ a3 = b3 := by
  refine ⟨fun h => ?_, fun ⟨h0, h1, h2, h3⟩ => by rw [h0, h1, h2, h3]⟩
  obtain ⟨ha3, ha2, ha1, ha0⟩ := packPlacesLowestOffsetLast.1 a0 a1 a2 a3
  obtain ⟨hb3, hb2, hb1, hb0⟩ := packPlacesLowestOffsetLast.1 b0 b1 b2 b3
  rw [h] at ha0 ha1 ha2 ha3
  exact ⟨ha0.symm.trans hb0, ha1.symm.trans hb1, ha2.symm.trans hb2, ha3.symm.trans hb3⟩

theorem fold32_eq_iff_word (c : Word) {v w : Word} : fold32 c v = fold32 c w ↔ v = w := by
  rw [fold32_comm c v, fold32_comm c w]
  exact (fold32_injective c).eq_iff

/-- A byte other than 0 in the place of a padding byte changes the last word, and with it what any
register folds to. -/
theorem foldWords_append_byte_ne (c : Word) {d : List Byte} {b : Byte} (hb : b ≠ 0#8)
    (h : d.length % 4 ≠ 0) : foldWords c (wordsOf (d ++ [b])) ≠ foldWords c (wordsOf d) := by
  induction d using wordsOf.induct generalizing c with
  | case1 => simp at h
  | case2 b0 => simp [fold32_eq_iff_word, pack_eq_iff, hb]
  | case3 b0 b1 => simp [fold32_eq_iff_word, pack_eq_iff, hb]
  | case4 b0 b1 b2 => simp [fold32_eq_iff_word, pack_eq_iff, hb]
  | case5 b0 b1 b2 b3 rest ih =>
    rw [length_chunk_mod] at h
    exact ih (fold32 c (pack b0 b1 b2 b3)) h

/-- After whole chunks the word stream goes on with that of the rest. -/
theorem wordsOf_append {d : List Byte} (e : List Byte) (h : d.length % 4 = 0) :
    wordsOf (d ++ e) = wordsOf d ++ wordsOf e := by
  induction d using wordsOf.induct with
  | case1 => rfl
  | case2 b0 => simp at h
  | case3 b0 b1 => simp at h
  | case4 b0 b1 b2 => simp at h
  | case5 b0 b1 b2 b3 rest ih =>
    rw [length_chunk_mod] at h
    simp only [List.cons_append, wordsOf_chunk, ih h]

/-- After whole chunks the byte `01` adds the word 1. -/
theorem checksum_append_one {d : List Byte} (h : d.length % 4 = 0) :
    checksum (d ++ [0x01#8]) = fold32 (checksum d) 1#32 := by
  rw [checksum, wordsOf_append _ h, foldWords_append]
  rfl

end Sys2Proof.Machine
end

section
/-! ### The one register that folding the word 1 leaves (`41_bit_step.md` R111,
`42_compute_sequence.md` R128) -/

namespace Sys2Proof

open Polynomial Machine

theorem coeff_wordPoly (v : Word) {j : Nat} (hj : j < 32) :
    (wordPoly v).coeff j = if v.getLsbD j then 1 else 0 := by
  have hterm (i : Nat) : (if v.getLsbD i then X ^ i else (0 : (ZMod 2)[X])).coeff j =
      if j = i then (if v.getLsbD i then 1 else 0) else 0 := by
    cases v.getLsbD i <;> simp [coeff_X_pow]
  simp [wordPoly_eq_sum_range, hterm, hj]

theorem wordPoly_injective : Function.Injective wordPoly := by
  intro v w h
  refine BitVec.eq_of_getLsbD_eq fun j hj => ?_
  have hcoeff := congrArg (coeff · j) h
  simp only [coeff_wordPoly _ hj] at hcoeff
  cases hv : v.getLsbD j <;> cases hw : w.getLsbD j <;> simp [hv, hw] at hcoeff ⊢

/-- Words congruent modulo the generator are equal. -/
theorem eq_of_generator_dvd {v w : Word} (h : generator ∣ wordPoly v - wordPoly w) : v = w := by
  have hself : wordPoly w = wordPoly w %ₘ generator := wordPoly_eq_modByMonic (by simp)
  exact wordPoly_injective ((wordPoly_eq_modByMonic h).trans hself.symm)

theorem wordPoly_one : wordPoly 1#32 = 1 := by
  have hbits : setBits 1#32 = {0} := by decide
  simp [wordPoly_eq_sum_setBits, hbits]

/-- A register that folding the word 1 leaves is, with the word 1 added, an inverse of `1 - x^32`
modulo the generator. -/
theorem generator_dvd_of_fold32_one_eq {c : Word} (h : fold32 c 1#32 = c) :
    generator ∣ (wordPoly c + 1) * (X ^ 32 - 1) + 1 := by
  have hfold := foldIsPolynomialRemainder.2 c 1#32
  rw [h, wordPoly_one] at hfold
  have hdvd : generator ∣ (wordPoly c + 1) * X ^ 32 - wordPoly c := by
    rw [← dvd_neg, neg_sub]
    nth_rewrite 1 [hfold]
    exact dvd_modByMonic_sub _ _
  convert hdvd using 1
  ring

/-- An inverse modulo the generator is unique. -/
theorem eq_of_fold32_one_eq {c d : Word} (hc : fold32 c 1#32 = c) (hd : fold32 d 1#32 = d) :
    c = d := by
  refine eq_of_generator_dvd ?_
  have hsplit : wordPoly c - wordPoly d =
      (wordPoly c + 1) * ((wordPoly d + 1) * (X ^ 32 - 1) + 1) -
        (wordPoly d + 1) * ((wordPoly c + 1) * (X ^ 32 - 1) + 1) := by ring
  rw [hsplit]
  exact dvd_sub ((generator_dvd_of_fold32_one_eq hd).mul_left _)
    ((generator_dvd_of_fold32_one_eq hc).mul_left _)

theorem fold32_fixed_one : fold32 0x2EF1C59C#32 1#32 = 0x2EF1C59C#32 := by decide

theorem fold32_one_eq_iff (c : Word) : fold32 c 1#32 = c ↔ c = 0x2EF1C59C#32 :=
  ⟨fun h => eq_of_fold32_one_eq h fold32_fixed_one, fun h => h ▸ fold32_fixed_one⟩

/-- Settles O56: within a chunk the last word changes, and after whole chunks the word 1 is folded
into the checksum, which leaves exactly one value. -/
theorem lengthSensitivityExact : Obligations.LengthSensitivityExact := by
  refine fun d => ⟨foldWords_append_byte_ne Config.seed (by decide), fun h => ?_⟩
  rw [checksum_append_one h, fold32_one_eq_iff]

end Sys2Proof
end

section
/-! ### Every value, and the byte-serial form (`42_compute_sequence.md` R129, R130) -/

namespace Sys2Proof.Machine

/-! #### Four bytes reach every value (R129) -/

/-- Settles O57: a fold is onto in its word, and every word is packed from its four bytes. -/
theorem everyValueIsAChecksum : Obligations.EveryValueIsAChecksum := by
  intro v
  obtain ⟨w, hw⟩ := (foldIsBijectiveInEachArgument.2.1 Config.seed).surjective v
  refine ⟨w.extractLsb' 0 8, w.extractLsb' 8 8, w.extractLsb' 16 8, w.extractLsb' 24 8, ?_⟩
  rw [checksum, wordsOf_chunk, packPlacesLowestOffsetLast.2 w]
  exact hw

/-! #### The byte-serial form (R51, R130) -/

/-- The steps from step `n` on, as a loop. -/
theorem foldSteps_add (n k : Nat) (c w : Word) :
    foldSteps (n + k) c w =
      (List.range k).foldl (fun r j => step1 r (w.getLsbD (31 - (n + j)))) (foldSteps n c w) := by
  induction k with
  | zero => rfl
  | succ k ih => rw [← Nat.add_assoc, foldSteps_succ, ih, List.range_succ, List.foldl_concat]

/-- A byte is consumed from bit 7 down to bit 0 (R51). -/
theorem byteStep_eq_foldl (c : Word) (b : Byte) :
    byteStep c b = (List.range 8).foldl (fun r j => step1 r (b.getLsbD (7 - j))) c := rfl

/-- Eight steps of a fold are the byte step of the byte they consume. -/
theorem foldSteps_add_eight (c w : Word) {n : Nat} (hn : n ≤ 24) :
    foldSteps (n + 8) c w = byteStep (foldSteps n c w) (w.extractLsb' (24 - n) 8) := by
  rw [foldSteps_add, byteStep_eq_foldl]
  refine List.foldl_ext _ _ _ fun r j hj => ?_
  have hlt : j < 8 := List.mem_range.mp hj
  have hpos : 24 - n + (7 - j) = 31 - (n + j) := by omega
  rw [BitVec.getLsbD_extractLsb', decide_eq_true (by omega), Bool.true_and, hpos]

/-- A fold takes the byte at the highest offset first (R51). -/
theorem fold32_pack (c : Word) (b0 b1 b2 b3 : Byte) :
    fold32 c (pack b0 b1 b2 b3) = [b3, b2, b1, b0].foldl byteStep c := by
  obtain ⟨h3, h2, h1, h0⟩ := packPlacesLowestOffsetLast.1 b0 b1 b2 b3
  rw [fold32, foldSteps_add_eight c _ (n := 24) (by omega),
    foldSteps_add_eight c _ (n := 16) (by omega), foldSteps_add_eight c _ (n := 8) (by omega),
    foldSteps_add_eight c _ (n := 0) (by omega), h0, h1, h2, h3]
  rfl

theorem foldWords_wordsOf (c : Word) (d : List Byte) :
    foldWords c (wordsOf d) = (entryOrder d).foldl byteStep c := by
  induction d using wordsOf.induct generalizing c with
  | case1 => rfl
  | case2 b0 => exact fold32_pack c b0 0#8 0#8 0#8
  | case3 b0 b1 => exact fold32_pack c b0 b1 0#8 0#8
  | case4 b0 b1 b2 => exact fold32_pack c b0 b1 b2 0#8
  | case5 b0 b1 b2 b3 rest ih =>
    rw [wordsOf_chunk, foldWords_cons, fold32_pack, ih]
    rfl

/-- Settles O58, a chunk at a time, from the seed. -/
theorem checksumIsByteSerialCrcOfReversedChunks :
    Obligations.ChecksumIsByteSerialCrcOfReversedChunks :=
  foldWords_wordsOf Config.seed

end Sys2Proof.Machine
end

section
/-! ### The one stop of the machine (`60_exceptions.md` R140, R147) -/

namespace Sys2Proof.Machine

/-- Every command has a meaning in every state (R80). -/
theorem exec_answers_next (i : Instr) (s : State) : ∃ t : State, exec i s = .next t := by
  cases i with
  | nop => exact ⟨_, exec_nop s⟩
  | init => exact ⟨_, exec_init s⟩
  | fold w => exact ⟨_, exec_fold w s⟩
  | read => exact ⟨_, exec_read s⟩

/-- A kept handshake leaves R105's four cases, each with a next state. -/
theorem step_answers_next {s : State} (hk : keepsHandshake s) : ∃ t : State, step s = .next t := by
  cases hr : (nextEdge s).rst with
  | true => exact ⟨_, step_of_reset hk hr⟩
  | false =>
    cases hb : s.busy with
    | true => exact ⟨_, step_of_busy hk hr hb⟩
    | false =>
      cases hv : (nextEdge s).cmdValid with
      | true =>
        rw [step_of_accepted hk (acceptedNext_eq_some.mpr ⟨hv, hb, hr, rfl⟩)]
        exact exec_answers_next _ _
      | false => exact ⟨_, step_of_quiet hk hr hb hv⟩

/-- The refusal comes before everything else an edge does, a reset included (R147). -/
theorem step_of_broken {s : State} (hk : ¬ keepsHandshake s) :
    step s = .refused .handshakeBroken :=
  if_pos (Bool.eq_true_of_not_eq_false hk)

/-- Keeping the handshake is presenting the held command again, if there is one (R64). -/
theorem keepsHandshake_iff {s : State} :
    keepsHandshake s ↔
      ∀ c, s.held = some c → (nextEdge s).cmdValid = true ∧ (nextEdge s).cmd = c := by
  rw [keepsHandshake]
  cases s.held with
  | none => simp
  | some held => simp [handshakeBroken_some_eq_false]

/-- Settles O22: the four cases of R105 under a kept handshake, the refusal ahead of them
otherwise; `Fault` has no constructor. -/
theorem onlyABrokenHandshakeStops : Obligations.OnlyABrokenHandshakeStops := fun _ =>
  ⟨step_answers_next, step_of_broken, keepsHandshake_iff, nofun⟩

end Sys2Proof.Machine
end

section
/-! ### Reset edges and a fold they interrupt (`70_reset_and_hazards.md` R160 to R162) -/

namespace Sys2Proof.Machine

/-- A block in reset is not ready. -/
theorem cmdReady_of_reset (s : State) {e : Edge} (hr : e.rst = true) : cmdReady s e = false := by
  simp [cmdReady, hr]

/-- A block in reset holds what is presented to it (R64). -/
theorem heldAfter_of_reset (s : State) {e : Edge} (hr : e.rst = true) :
    heldAfter s e = if e.cmdValid then some e.cmd else none := by
  simp [heldAfter, cmdReady_of_reset s hr]

/-- Settles O8: the reset acts on the sampled state, and a block that is not ready neither accepts
nor answers. -/
theorem resetEdgeSeedsAndIdles : Obligations.ResetEdgeSeedsAndIdles := by
  intro s hr hk
  have hready := cmdReady_of_reset s hr
  refine ⟨?_, by simp [acceptedNext, acceptedAt, hready], hready, by simp [rspValid, hready]⟩
  rw [step_of_reset hk hr, sampled, heldAfter_of_reset s hr]
  rfl

/-- The state `s` after a reset at which nothing is presented, `rest` being the edges to come. -/
def afterReset (rest : List Edge) (s : State) : State :=
  { s with crc := Config.seed, busy := false, cnt := 0#5, inputs := rest }

@[simp] theorem afterReset_crc (rest : List Edge) (s : State) :
    (afterReset rest s).crc = Config.seed := rfl
@[simp] theorem afterReset_cnt (rest : List Edge) (s : State) :
    (afterReset rest s).cnt = 0#5 := rfl
@[simp] theorem afterReset_inputs (rest : List Edge) (s : State) :
    (afterReset rest s).inputs = rest := rfl

/-- A second reset finds the registers as it would leave them (R161). -/
theorem afterReset_afterReset (rest rest' : List Edge) (s : State) :
    afterReset rest (afterReset rest' s) = afterReset rest s := rfl

theorem step_eq_afterReset {s : State} {c : Cmd34} {rest : List Edge} (hheld : s.held = none)
    (hin : s.inputs = ⟨true, false, c⟩ :: rest) : step s = .next (afterReset rest s) := by
  have hnext := nextEdge_of_cons hin
  have hr : (nextEdge s).rst = true := by rw [hnext]
  have hk : keepsHandshake s := by simp [keepsHandshake, hheld]
  obtain ⟨hstep, _⟩ := resetEdgeSeedsAndIdles s hr hk
  simp [hstep, afterReset, Config.seed, hnext, hin, hheld]

/-- Settles O9, by induction on the further edges: each finds a block that was just reset. -/
theorem repeatedResetChangesNothingFurther : Obligations.RepeatedResetChangesNothingFurther := by
  intro s c n rest hheld hin
  change run (n + 1) s = .next (afterReset rest s)
  induction n generalizing s with
  | zero => rw [run_succ (step_eq_afterReset hheld hin), run_zero]; rfl
  | succ n ih =>
    have hstep : step s = .next (afterReset (List.replicate (n + 1) ⟨true, false, c⟩ ++ rest) s) :=
      step_eq_afterReset hheld hin
    have hrest := ih (afterReset (List.replicate (n + 1) ⟨true, false, c⟩ ++ rest) s) hheld rfl
    rw [run_succ hstep, hrest, afterReset_afterReset]

/-- What further edges do to a block that was reset and is presented nothing more: they are consumed
(R162). -/
theorem afterOver_afterReset (n : Nat) (rest : List Edge) (s : State) :
    afterOver n (afterReset rest s) = afterReset (rest.drop n) s := by
  simp only [afterOver, afterReset_crc, afterReset_cnt, afterReset_inputs, ite_self]
  rfl

/-- Settles O10: the reset leaves an idle block, which accepts the held command at the next edge and
whose run is over where no command is to come. Which steps clear `busy` is O28's last clause. -/
theorem resetAbandonsFoldInProgress : Obligations.ResetAbandonsFoldInProgress := by
  refine ⟨fun s c rest _ hk hin => ?_, fun s c rest n _ hheld hin hquiet => ?_,
    fun s t hb h ht => ?_⟩
  · have hnext := nextEdge_of_cons hin
    have hr : (nextEdge s).rst = true := by rw [hnext]
    obtain ⟨hstep, _⟩ := resetEdgeSeedsAndIdles s hr hk
    rw [hnext, hin] at hstep
    refine ⟨_, hstep, rfl, rfl, rfl, rfl, rfl, rfl, ?_⟩
    exact step_of_presents rfl (handshakeBroken_some_self c _ rfl rfl) rfl
  · have hover : runOver (afterReset rest s) := ⟨hquiet, hheld, rfl⟩
    rw [run_succ (step_eq_afterReset hheld hin), run_of_runOver n hover, afterOver_afterReset]
    rfl
  · obtain ⟨_, _, _, _, hclears⟩ := registersAreWrittenOnlyWhereNamed s t h
    exact hclears hb ht

end Sys2Proof.Machine
end

section
/-! ### Edges until the block is ready again (`70_reset_and_hazards.md` R172, R174) -/

namespace Sys2Proof.Machine

/-! #### The timing table (R172) -/

/-- A command with no edges in the timing table starts no fold. -/
theorem exec_busy_of_edgesAfter_zero {i : Instr} {s t : State} (hi : edgesAfter i = 0)
    (h : exec i s = .next t) : t.busy = s.busy := by
  obtain ⟨_, rfl⟩ | ⟨_, rfl⟩ | ⟨w, rfl, _⟩ | ⟨_, rfl⟩ := exec_cases h
  · rfl
  · rfl
  · simp [edgesAfter] at hi
  · rfl

theorem edgesAfter_eq_zero_or_fold (i : Instr) : edgesAfter i = 0 ∨ ∃ w, i = .fold w := by
  cases i with
  | nop => exact .inl rfl
  | init => exact .inl rfl
  | fold w => exact .inr ⟨w, rfl⟩
  | read => exact .inl rfl

/-- Settles O26: a command that starts no fold is done at its edge, and a fold goes through the
states of `foldState`. -/
theorem edgesUntilReadyAgain : Obligations.EdgesUntilReadyAgain := by
  intro s i waiting rest hb hheld hr hin
  obtain hi | ⟨w, rfl⟩ := edgesAfter_eq_zero_or_fold i
  · rw [hi] at hin ⊢
    have hin : s.inputs = presentEdge (encode i) :: rest := hin
    have hk : keepsHandshake s := by simp [keepsHandshake, hheld]
    obtain ⟨t, ht⟩ := exec_answers_next i ((popEdge s).setHeld none)
    have hstep : step s = .next t := by
      rw [step_of_presents hb hk (nextEdge_of_cons hin), decode_encode, ht]
    have hidle : t.busy = false := (exec_busy_of_edgesAfter_zero hi ht).trans hb
    obtain ⟨hcrc, hresp⟩ := exec_refines (s := (popEdge s).setHeld none) hb ht
    refine ⟨nofun, t, run_snoc (run_zero s) hstep, cmdReady_eq_true.mpr ⟨hidle, hr⟩, ?_, ?_, hresp⟩
    · rw [step_inputs hstep, hin, List.tail_cons]
    · rw [← settledCrc_of_idle hidle, hcrc]
      rfl
  · refine ⟨fun k hk => ⟨_, run_foldState hb hheld hr hin (le_of_lt hk), ?_⟩, _,
      run_foldState hb hheld hr hin le_rfl, cmdReady_eq_true.mpr ⟨rfl, hr⟩, rfl, rfl,
      (List.append_nil _).symm⟩
    have hbusy : (foldState s w waiting rest k).busy = true := decide_eq_true hk
    simp [cmdReady, hbusy]

/-! #### The end of a fold, a command held meanwhile (R174) -/

/-- An idle block that `STEP`s have led to has `cnt == 0` (R27). -/
theorem settleFor_cnt (n : Nat) {s : State} (h : s.busy = false → s.cnt = 0#5)
    (hidle : (settleFor n s).busy = false) : (settleFor n s).cnt = 0#5 := by
  induction n generalizing s with
  | zero => exact h hidle
  | succ n ih =>
    cases hb : s.busy with
    | true =>
      obtain ⟨hcnt, _⟩ := invariant_microStep s
      simp only [settleFor, hb, if_true] at hidle ⊢
      exact ih hcnt hidle
    | false => simpa [settleFor, hb] using h hb

theorem settle_cnt_of_busy {s : State} (hb : s.busy = true) : (settle s).cnt = 0#5 :=
  settleFor_cnt _ (by simp [hb]) (settle_busy s)

/-- A busy block to which `c` is presented, held until now or new, performs a `STEP` and holds `c`
(R64, R106). -/
theorem step_of_busy_presents {s : State} {c : Cmd34} {es : List Edge} (hb : s.busy = true)
    (hheld : s.held = none ∨ s.held = some c) (hin : s.inputs = presentEdge c :: es) :
    step s = .next (microStep ((s.setInputs es).setHeld (some c))) := by
  have hp := nextEdge_of_cons hin
  have hk : keepsHandshake s := by
    rw [keepsHandshake, hp]
    obtain h | h := hheld <;> simp [h, handshakeBroken, presentEdge]
  rw [step_of_busy hk (by rw [hp]; rfl) hb, sampled, heldAfter_of_busy _ hb, hp, popEdge, hin]
  rfl

/-- As many edges as a fold has steps left, `c` presented at each, end the fold and leave `c` held:
each edge is one `STEP`, which does not change what the fold comes to. -/
theorem run_presents_of_busy (n : Nat) {s : State} {c : Cmd34} {rest : List Edge}
    (hb : s.busy = true) (hcnt : s.cnt.toNat + (n + 1) = 32)
    (hheld : s.held = none ∨ s.held = some c)
    (hin : s.inputs = List.replicate (n + 1) (presentEdge c) ++ rest) :
    run (n + 1) s = .next (settle ((s.setInputs rest).setHeld (some c))) := by
  induction n generalizing s with
  | zero =>
    have hlast : s.cnt = 31#5 := BitVec.eq_of_toNat_eq (show s.cnt.toNat = 31 by omega)
    have hdone : (microStep ((s.setInputs rest).setHeld (some c))).busy = false := by simp [hlast]
    have hsettle : settle ((s.setInputs rest).setHeld (some c)) =
        microStep ((s.setInputs rest).setHeld (some c)) := by
      rw [← settle_of_idle hdone, settle_microStep (s := (s.setInputs rest).setHeld (some c)) hb]
    rw [hsettle]
    exact run_snoc (run_zero s) (step_of_busy_presents hb hheld hin)
  | succ n ih =>
    have hne : s.cnt ≠ 31#5 := ne_of_apply_ne BitVec.toNat (show s.cnt.toNat ≠ 31 by omega)
    have hcnt' : (cntAfterStep s.cnt).toNat + (n + 1) = 32 := by
      rw [toNat_cntAfterStep hne]
      omega
    rw [run_succ (step_of_busy_presents hb hheld hin),
      ih (busyAfterStep_of_ne hne) hcnt' (.inr rfl) rfl]
    exact congrArg _ (settle_microStep (s := (s.setInputs rest).setHeld (some c)) hb)

/-- Settles O27: the fold's last step leaves an idle block with the command held, which it accepts at
the next edge. -/
theorem everyFoldEndsAndHeldCommandIsAccepted :
    Obligations.EveryFoldEndsAndHeldCommandIsAccepted := by
  intro s c rest hb hheld hin
  have hlt : s.cnt.toNat < 32 := s.cnt.isLt
  obtain ⟨n, hn⟩ : ∃ n, 32 - s.cnt.toNat = n + 1 := ⟨31 - s.cnt.toNat, by omega⟩
  rw [hn] at hin ⊢
  have hrun := run_presents_of_busy n hb (by omega) hheld hin
  rw [settle_setHeld, settle_setInputs] at hrun
  refine ⟨_, hrun, settle_busy s, settle_cnt_of_busy hb, settleFor_wreg _ s, rfl,
    settleFor_responses _ s, rfl, ?_⟩
  exact step_of_presents (settle_busy s) (handshakeBroken_some_self c _ rfl rfl) rfl

end Sys2Proof.Machine
end

section
/-! ### Commands left out of a list or of a message (`70_reset_and_hazards.md` R165, R166, R170) -/

namespace Sys2Proof.Machine

/-- Settles O35, by induction on the list: what is kept acts on the same `crc`, and only a `READ` that
is kept adds to the responses. -/
theorem nopAndReadDoNotDisturb : Obligations.NopAndReadDoNotDisturb := by
  intro is c
  induction is generalizing c with
  | nil => exact ⟨rfl, rfl⟩
  | cons i is ih =>
    cases i with
    | nop => exact ih c
    | init => exact ih Config.seed
    | fold w => exact ih (fold32 c w)
    | read =>
      obtain ⟨hnops, hreads⟩ := ih c
      exact ⟨congrArg (fun r => (r.1, c :: r.2)) hnops, hreads⟩

/-- Settles O36: both leave the seed, and a reset answers as little as `INIT`. -/
theorem resetStandsInForInit : Obligations.ResetStandsInForInit :=
  ⟨fun _ _ => rfl, fun d => commandListsCompose.2 (wordsOf d) Config.seed⟩

/-- Settles O37: folding two word streams one after the other is folding their concatenation, which
after whole chunks is the word stream of the concatenated bytes. -/
theorem missingInitContinuesTheOldChecksum : Obligations.MissingInitContinuesTheOldChecksum := by
  intro p d
  refine ⟨?_, fun hp => by rw [checksum, wordsOf_append d hp]⟩
  rw [commandListsCompose.2, foldWords_append, checksum]

end Sys2Proof.Machine
end
